-- ==== Sys2Proof/Word.lean ====
section
/-! DEFINITION. The words of the FFEC block: the port word, the register word, the port offset. -/

namespace Sys2Proof

/-- A 32-bit value of the host port, and a command word (00_scope R8: PORT_WIDTH, CMD_WIDTH). -/
abbrev Word := BitVec 32

/-- The content of an F register, or of one coordinate of a P register (00_scope R8: XLEN; 10_state R22). -/
abbrev Reg := BitVec 256

/-- A byte offset into the host port (00_scope R8: PORT_ADDR_BITS; 20_memory R36). -/
abbrev Offset := BitVec 12

end Sys2Proof
end

