-- ==== Sys2Proof/Config.lean ====
section
/-! DEFINITION. What an FFEC block fixes (00_scope R6-R8, 10_state R26, R35), the parameters the spec leaves open, and the
free values: constants without a body, of which nothing can be proved. -/

namespace Sys2Proof.Config

/-- The field modulus, a hardwired constant (R6). -/
def p : Nat := 0x30644e72e131a029b85045b68181585d2833e84879b9709143e1f593f0000001

/-- The coordinates of the generator G1 = (1, 2), a hardwired constant (R7, R35). -/
def g1x : Nat := 1

/-- See `g1x`. -/
def g1y : Nat := 2

/-- The constant term b of the curve y^2 = x^3 + b (R7). -/
def curveB : Nat := 3

/-- The iterations of the scalar-multiply ladder (R8: MUL_ITERS). -/
def mulIters : Nat := 256

/-- The hardwired content of the ID register, the bytes "FFEC" (R26). -/
def idValue : Word := 0x46464543#32

/-- OPEN parameter CURVE_ORDER (R8, D26): no rule reads it. Log entry 9. -/
opaque curveOrder : Nat

/-- OPEN parameter PORT_BASE (R8, D15): the platform address of port offset 0x000. Log entry 9. -/
opaque portBase : Nat

/-- FREE VALUE, one for each draw: the LATENCY of an accepted command (R8, R124), counted in the host moves that are still
performed before the command retires. Log entry 5. -/
opaque latency : Nat → Nat

/-- FREE VALUE, one for each draw: what a read of the F window, the P window or PINF returns while BUSY = 1 (R45). Log entry 6. -/
opaque busyRead : Nat → Word

/-- FREE VALUE, one for each draw: the content of an unspecified F register, and the coordinates an unspecified point register
is made from (R21, R117). Log entries 7 and 8. -/
opaque unspecifiedReg : Nat → Reg

/-- FREE VALUE, one for each draw: the inf bit of an unspecified point register (R23, R117). Log entries 7 and 8. -/
opaque unspecifiedBit : Nat → Bool

end Sys2Proof.Config
end

