-- ==== Sys2Proof/Syntax.lean ====
section
/-! DEFINITION. The 23 commands of the opcode map (30_encoding R58), with the operands of the assembler syntax (R61). -/

namespace Sys2Proof

/-- The number of an F register: every 4-bit field names one (R56). -/
abbrev FIdx := Fin 16

/-- The number of a P register: a point field above 7 is illegal (R56). -/
abbrev PIdx := Fin 8

/-- One command. `w` is a bit width (1 to 256), `k` a word number (0 to 7), `h` a half (0 or 1): see `Instr.WellFormed`. -/
inductive Instr where
  | nop
  | mov (d a : FIdx)
  | ldi (d : FIdx) (imm : BitVec 16)
  | fadd (d a b : FIdx)
  | fsub (d a b : FIdx)
  | fmul (d a b : FIdx)
  | fdiv (d a b : FIdx)
  | finv (d a : FIdx)
  | fexp (d a b : FIdx)
  | fexpm (d a b m : FIdx)
  | fred (d a : FIdx)
  | pgen (d : PIdx)
  | pset (d : PIdx) (a b : FIdx)
  | px (d : FIdx) (a : PIdx)
  | py (d : FIdx) (a : PIdx)
  | pdbl (d a : PIdx)
  | padd (d a b : PIdx)
  | pmul (d a : PIdx) (b : FIdx)
  | bits (d a : FIdx) (w : Nat)
  | brev (d a : FIdx) (w : Nat)
  | wsplit (d a : FIdx) (k : Nat)
  | wins (d a : FIdx) (k : Nat)
  | fpack (d a : FIdx) (h : Nat)
  deriving DecidableEq, Repr

end Sys2Proof
end

