-- ==== Sys2Proof/WellFormed.lean ====
section
/-! DEFINITION. Which terms of `Instr` are commands: the ranges of the immediates (30_encoding R57, R61). Register numbers are
in range by their types. -/

namespace Sys2Proof

/-- A width of BITS or BREV: 1 to 256; width 0 cannot be encoded (R57). -/
abbrev WidthOk (w : Nat) : Prop := 1 ≤ w ∧ w ≤ 256

/-- A word number of WSPLIT or WINS (R57). -/
abbrev WordIndexOk (k : Nat) : Prop := k ≤ 7

/-- A half of FPACK (R57). -/
abbrev HalfOk (h : Nat) : Prop := h ≤ 1

/-- The check of an immediate; the check an assembler makes before it encodes (R61). -/
def Instr.wellFormed : Instr → Bool
  | .bits _ _ w | .brev _ _ w => decide (WidthOk w)
  | .wsplit _ _ k | .wins _ _ k => decide (WordIndexOk k)
  | .fpack _ _ h => decide (HalfOk h)
  | .nop | .mov .. | .ldi .. | .fadd .. | .fsub .. | .fmul .. | .fdiv .. | .finv .. | .fexp .. | .fexpm .. | .fred ..
  | .pgen .. | .pset .. | .px .. | .py .. | .pdbl .. | .padd .. | .pmul .. => true

/-- `i` is a command of the block. -/
abbrev Instr.WellFormed (i : Instr) : Prop := i.wellFormed = true

end Sys2Proof
end

