-- ==== Sys2Proof/Decode.lean ====
section
/-! DEFINITION. Command words: the fields and formats (30_encoding R54, R55), the opcode map (R58), the decoder (R59, R60),
which rejects by name, and the encoder written from the same tables. -/

namespace Sys2Proof

/-- The 23 rows of the opcode map (R58). -/
inductive Op where
  | nop | mov | ldi
  | fadd | fsub | fmul | fdiv | finv | fexp | fexpm | fred
  | pgen | pset | px | py | pdbl | padd | pmul
  | bits | brev | wsplit | wins | fpack
  deriving DecidableEq, Repr

/-- The formats (R55). -/
inductive Format where
  | n | r1 | r2 | r3 | r4 | ri | i16
  deriving DecidableEq, Repr

/-- Why a word is illegal: the three kinds of R60. -/
inductive Illegal where
  /-- The opcode is in no row of the opcode map. -/
  | reservedOpcode
  /-- A field that the row's format does not use is not zero. -/
  | mustBeZero
  /-- A point field is above 7, a word number above 7 or a half above 1. -/
  | fieldRange
  deriving DecidableEq, Repr

/-- Every row, in the map's order. -/
def Op.all : List Op :=
  [.nop, .mov, .ldi, .fadd, .fsub, .fmul, .fdiv, .finv, .fexp, .fexpm, .fred] ++
  [.pgen, .pset, .px, .py, .pdbl, .padd, .pmul, .bits, .brev, .wsplit, .wins, .fpack]

/-- The column "mnemonic" (R58). -/
def Op.mnemonic : Op → String
  | .nop => "NOP" | .mov => "MOV" | .ldi => "LDI"
  | .fadd => "FADD" | .fsub => "FSUB" | .fmul => "FMUL" | .fdiv => "FDIV"
  | .finv => "FINV" | .fexp => "FEXP" | .fexpm => "FEXPM" | .fred => "FRED"
  | .pgen => "PGEN" | .pset => "PSET" | .px => "PX" | .py => "PY"
  | .pdbl => "PDBL" | .padd => "PADD" | .pmul => "PMUL"
  | .bits => "BITS" | .brev => "BREV" | .wsplit => "WSPLIT" | .wins => "WINS" | .fpack => "FPACK"

/-- The column "OPC" (R58). -/
def Op.opc : Op → BitVec 8
  | .nop => 0x00#8 | .mov => 0x01#8 | .ldi => 0x02#8
  | .fadd => 0x10#8 | .fsub => 0x11#8 | .fmul => 0x12#8 | .fdiv => 0x13#8
  | .finv => 0x14#8 | .fexp => 0x15#8 | .fexpm => 0x16#8 | .fred => 0x17#8
  | .pgen => 0x20#8 | .pset => 0x21#8 | .px => 0x22#8 | .py => 0x23#8
  | .pdbl => 0x24#8 | .padd => 0x25#8 | .pmul => 0x26#8
  | .bits => 0x30#8 | .brev => 0x31#8 | .wsplit => 0x32#8 | .wins => 0x33#8 | .fpack => 0x34#8

/-- The column "format" (R58). -/
def Op.format : Op → Format
  | .nop => .n
  | .ldi => .i16
  | .pgen => .r1
  | .mov | .finv | .fred | .px | .py | .pdbl => .r2
  | .fadd | .fsub | .fmul | .fdiv | .fexp | .pset | .padd | .pmul => .r3
  | .fexpm => .r4
  | .bits | .brev | .wsplit | .wins | .fpack => .ri

/-- The column "match" (R58). -/
def Op.pattern : Op → Word
  | .nop => 0x00000000#32 | .mov => 0x01000000#32 | .ldi => 0x02000000#32
  | .fadd => 0x10000000#32 | .fsub => 0x11000000#32 | .fmul => 0x12000000#32 | .fdiv => 0x13000000#32
  | .finv => 0x14000000#32 | .fexp => 0x15000000#32 | .fexpm => 0x16000000#32 | .fred => 0x17000000#32
  | .pgen => 0x20000000#32 | .pset => 0x21000000#32 | .px => 0x22000000#32 | .py => 0x23000000#32
  | .pdbl => 0x24000000#32 | .padd => 0x25000000#32 | .pmul => 0x26000000#32
  | .bits => 0x30000000#32 | .brev => 0x31000000#32 | .wsplit => 0x32000000#32 | .wins => 0x33000000#32
  | .fpack => 0x34000000#32

/-- The column "mask" (R58). -/
def Op.mask : Op → Word
  | .nop => 0xFFFFFFFF#32 | .mov => 0xFF00FFFF#32 | .ldi => 0xFF0F0000#32
  | .fadd => 0xFF000FFF#32 | .fsub => 0xFF000FFF#32 | .fmul => 0xFF000FFF#32 | .fdiv => 0xFF000FFF#32
  | .finv => 0xFF00FFFF#32 | .fexp => 0xFF000FFF#32 | .fexpm => 0xFF0000FF#32 | .fred => 0xFF00FFFF#32
  | .pgen => 0xFF8FFFFF#32 | .pset => 0xFF800FFF#32 | .px => 0xFF08FFFF#32 | .py => 0xFF08FFFF#32
  | .pdbl => 0xFF88FFFF#32 | .padd => 0xFF888FFF#32 | .pmul => 0xFF880FFF#32
  | .bits => 0xFF00FF00#32 | .brev => 0xFF00FF00#32 | .wsplit => 0xFF00FFF8#32 | .wins => 0xFF00FFF8#32
  | .fpack => 0xFF00FFFE#32

/-- The row of a command. -/
def Instr.op : Instr → Op
  | .nop => .nop | .mov .. => .mov | .ldi .. => .ldi
  | .fadd .. => .fadd | .fsub .. => .fsub | .fmul .. => .fmul | .fdiv .. => .fdiv
  | .finv .. => .finv | .fexp .. => .fexp | .fexpm .. => .fexpm | .fred .. => .fred
  | .pgen .. => .pgen | .pset .. => .pset | .px .. => .px | .py .. => .py
  | .pdbl .. => .pdbl | .padd .. => .padd | .pmul .. => .pmul
  | .bits .. => .bits | .brev .. => .brev | .wsplit .. => .wsplit | .wins .. => .wins | .fpack .. => .fpack

/-! ### Fields (R54) -/

/-- OPC, bits 31:24. -/
def opcField (w : Word) : BitVec 8 := w.extractLsb' 24 8
/-- D, bits 23:20. -/
def dField (w : Word) : BitVec 4 := w.extractLsb' 20 4
/-- A, bits 19:16. -/
def aField (w : Word) : BitVec 4 := w.extractLsb' 16 4
/-- B, bits 15:12. -/
def bField (w : Word) : BitVec 4 := w.extractLsb' 12 4
/-- M, bits 11:8. -/
def mField (w : Word) : BitVec 4 := w.extractLsb' 8 4
/-- IMM8, bits 7:0. -/
def imm8Field (w : Word) : BitVec 8 := w.extractLsb' 0 8
/-- IMM16, bits 15:0, which overlaps B, M and IMM8. -/
def imm16Field (w : Word) : BitVec 16 := w.extractLsb' 0 16

/-- The word with these fields (R54). -/
def ofFields (opc : BitVec 8) (d a b m : BitVec 4) (imm8 : BitVec 8) : Word := opc ++ d ++ a ++ b ++ m ++ imm8

/-! ### Decoding (R59) -/

/-- The row of an opcode; none for a reserved opcode (R58, R60). -/
def Op.ofOpc (c : BitVec 8) : Option Op := Op.all.find? (fun o => o.opc == c)

/-- The fields a format does not use are zero (R54, R55). -/
def Format.unusedZero (f : Format) (w : Word) : Bool :=
  match f with
  | .n => dField w == 0 && aField w == 0 && bField w == 0 && mField w == 0 && imm8Field w == 0
  | .r1 => aField w == 0 && bField w == 0 && mField w == 0 && imm8Field w == 0
  | .r2 => bField w == 0 && mField w == 0 && imm8Field w == 0
  | .r3 => mField w == 0 && imm8Field w == 0
  | .r4 => imm8Field w == 0
  | .ri => bField w == 0 && mField w == 0
  | .i16 => aField w == 0

/-- The F register a field names: all sixteen values (R56). -/
def fReg (x : BitVec 4) : FIdx := ⟨x.toNat, x.isLt⟩

/-- The P register a field names; none when bit 3 is set (R56). -/
def pReg (x : BitVec 4) : Option PIdx := if h : x.toNat < 8 then some ⟨x.toNat, h⟩ else none

/-- The immediate as a number within a bound (R57). -/
def boundedImm (bound : Nat) (x : BitVec 8) : Option Nat := if x.toNat ≤ bound then some x.toNat else none

/-- The command of a row with these fields (R56, R57); none where a field is out of range. -/
def Op.build (o : Op) (w : Word) : Option Instr :=
  let d := dField w
  let a := aField w
  let b := bField w
  match o with
  | .nop => some .nop
  | .mov => some (.mov (fReg d) (fReg a))
  | .ldi => some (.ldi (fReg d) (imm16Field w))
  | .fadd => some (.fadd (fReg d) (fReg a) (fReg b))
  | .fsub => some (.fsub (fReg d) (fReg a) (fReg b))
  | .fmul => some (.fmul (fReg d) (fReg a) (fReg b))
  | .fdiv => some (.fdiv (fReg d) (fReg a) (fReg b))
  | .finv => some (.finv (fReg d) (fReg a))
  | .fexp => some (.fexp (fReg d) (fReg a) (fReg b))
  | .fexpm => some (.fexpm (fReg d) (fReg a) (fReg b) (fReg (mField w)))
  | .fred => some (.fred (fReg d) (fReg a))
  | .pgen => (pReg d).map .pgen
  | .pset => (pReg d).map fun d => .pset d (fReg a) (fReg b)
  | .px => (pReg a).map fun a => .px (fReg d) a
  | .py => (pReg a).map fun a => .py (fReg d) a
  | .pdbl => (pReg d).bind fun d => (pReg a).map fun a => .pdbl d a
  | .padd => (pReg d).bind fun d => (pReg a).bind fun a => (pReg b).map fun b => .padd d a b
  | .pmul => (pReg d).bind fun d => (pReg a).map fun a => .pmul d a (fReg b)
  | .bits => some (.bits (fReg d) (fReg a) ((imm8Field w).toNat + 1))
  | .brev => some (.brev (fReg d) (fReg a) ((imm8Field w).toNat + 1))
  | .wsplit => (boundedImm 7 (imm8Field w)).map fun k => .wsplit (fReg d) (fReg a) k
  | .wins => (boundedImm 7 (imm8Field w)).map fun k => .wins (fReg d) (fReg a) k
  | .fpack => (boundedImm 1 (imm8Field w)).map fun h => .fpack (fReg d) (fReg a) h

/-- The decoder: total, one command or one kind of illegal word (R59, R60). -/
def decode (w : Word) : Except Illegal Instr :=
  match Op.ofOpc (opcField w) with
  | none => .error .reservedOpcode
  | some o =>
    if o.format.unusedZero w then
      match o.build w with
      | some i => .ok i
      | none => .error .fieldRange
    else .error .mustBeZero

/-! ### Encoding (R54-R58) -/

/-- An F register number as a field. -/
def fField (r : FIdx) : BitVec 4 := BitVec.ofNat 4 r.val

/-- A P register number as a field. -/
def pField (r : PIdx) : BitVec 4 := BitVec.ofNat 4 r.val

/-- The word of an operation on registers: unused fields zero. -/
def regWord (o : Op) (d : BitVec 4) (a b m : BitVec 4 := 0#4) : Word := ofFields o.opc d a b m 0#8

/-- The word of format RI. -/
def riWord (o : Op) (d a : FIdx) (imm : Nat) : Word := ofFields o.opc (fField d) (fField a) 0#4 0#4 (BitVec.ofNat 8 imm)

/-- The word of a well-formed command (R55, R57, R61). -/
def encode : Instr → Word
  | .nop => regWord .nop 0#4
  | .mov d a => regWord .mov (fField d) (fField a)
  | .ldi d imm => ofFields (Op.opc .ldi) (fField d) 0#4 (imm.extractLsb' 12 4) (imm.extractLsb' 8 4) (imm.extractLsb' 0 8)
  | .fadd d a b => regWord .fadd (fField d) (fField a) (fField b)
  | .fsub d a b => regWord .fsub (fField d) (fField a) (fField b)
  | .fmul d a b => regWord .fmul (fField d) (fField a) (fField b)
  | .fdiv d a b => regWord .fdiv (fField d) (fField a) (fField b)
  | .finv d a => regWord .finv (fField d) (fField a)
  | .fexp d a b => regWord .fexp (fField d) (fField a) (fField b)
  | .fexpm d a b m => regWord .fexpm (fField d) (fField a) (fField b) (fField m)
  | .fred d a => regWord .fred (fField d) (fField a)
  | .pgen d => regWord .pgen (pField d)
  | .pset d a b => regWord .pset (pField d) (fField a) (fField b)
  | .px d a => regWord .px (fField d) (pField a)
  | .py d a => regWord .py (fField d) (pField a)
  | .pdbl d a => regWord .pdbl (pField d) (pField a)
  | .padd d a b => regWord .padd (pField d) (pField a) (pField b)
  | .pmul d a b => regWord .pmul (pField d) (pField a) (fField b)
  | .bits d a w => riWord .bits d a (w - 1)
  | .brev d a w => riWord .brev d a (w - 1)
  | .wsplit d a k => riWord .wsplit d a k
  | .wins d a k => riWord .wins d a k
  | .fpack d a h => riWord .fpack d a h

/-- The command the decoder reads from a word given as a number; a command is one 32-bit value and has no byte order
(20_memory R42, 30_encoding R53). -/
def decodeTableWord (nbits w : Nat) : Option Instr :=
  match decode (BitVec.ofNat 32 (w % 2 ^ nbits)) with
  | .ok i => some i
  | .error _ => none

end Sys2Proof
end

