-- ==== Sys2Proof/Machine/State.lean ====
section
/-! DEFINITION. The state of the FFEC block (10_state R20-R35), the moves of its host, and the state after reset
(70_reset_and_hazards R116). All plain data. -/

namespace Sys2Proof.Machine

/-- A point register as stored (10_state R22). -/
structure PReg where
  inf : Bool
  x : Reg
  y : Reg
  deriving DecidableEq, Repr

/-- The working values of the scalar-multiply ladder (10_state R34); the index counts the iterations performed. -/
structure Ladder where
  result : PReg
  addend : PReg
  index : Nat
  deriving DecidableEq, Repr

/-- The error causes (60_exceptions R102). Code 0x00 is the absence of an error. -/
inductive ErrorCode where
  | divByZero
  | encodingRange
  /-- Reserved: no command raises it. -/
  | degenerateSample
  | illegalCommand
  | cmdOverrun
  | hostWriteBusy
  deriving DecidableEq, Repr

/-- The width of a port access: the port takes 32-bit accesses only (20_memory R38). -/
inductive Width where
  | narrow | word | wide
  deriving DecidableEq, Repr

/-- A move of the world outside the block: a port access (20_memory R36) or the reset input (70_reset_and_hazards R116). -/
inductive HostMove where
  | read (width : Width) (off : Offset)
  | write (width : Width) (off : Offset) (v : Word)
  | hardReset
  deriving DecidableEq, Repr

/-- What has happened on the port: an access that was performed, with the value a read returned, or a hard reset. -/
inductive PortEvent where
  | read (width : Width) (off : Offset) (v : Word)
  | write (width : Width) (off : Offset) (v : Word)
  | hardReset
  deriving DecidableEq, Repr

/-- The machine. The first group is the block's state; the second is the model's own (log entries 4, 5, 6). -/
structure State where
  /-- F0..F15 (R20). -/
  f : Vector Reg 16
  /-- P0..P7 (R22). -/
  p : Vector PReg 8
  /-- CMDCOUNT (R24, R30). -/
  cmdCount : Word
  /-- The accepted command word; BUSY is its presence (R28, R29, R34). -/
  inFlight : Option Word
  /-- The latched error; ERR is its presence (R28, R34). -/
  err : Option ErrorCode
  /-- ERRPC (R31). -/
  errPc : Word
  /-- ERRCMD (R32). -/
  errCmd : Word
  /-- The ladder's working values (R34). -/
  ladder : Ladder
  /-- The moves not yet performed, next first. -/
  inbox : List HostMove
  /-- What the host has done and what its reads returned, oldest first (00_scope R19). -/
  history : List PortEvent
  /-- How many moves may still precede the retirement of the in-flight command (R124). -/
  latency : Nat
  /-- The number of free values drawn so far. -/
  draws : Nat
  deriving DecidableEq, Repr

/-- Nothing in the spec stops the block: every command retires or latches an error (70_reset_and_hazards R125) and no port
access faults (20_memory R46). So no one raises a fault, and this type has no constructor. -/
inductive Fault where
  deriving DecidableEq, Repr

/-- Refusals. -/
inductive Refusal where
  /-- An arm of exec whose command has no meaning yet raises it; no arm does. Safe: the model stops. -/
  | notModelled (mnemonic : String)
  deriving DecidableEq, Repr

/-- What a command or a step answers. -/
abbrev Out := Host.Outcome State Fault Refusal

/-- The stored point register whose three fields are zero: what State.reset holds where the spec gives no value
(DESIGN CHOICE, log entries 2 and 3). -/
def PReg.zero : PReg := ⟨false, 0#256, 0#256⟩

/-- The machine right after reset (R116). F registers (log entry 1), P registers (log entry 2) and the ladder (log entry 3)
have no reset value in the spec: DESIGN CHOICE zero. The host has made no move yet (log entry 4). -/
def State.reset : State where
  f := Vector.replicate 16 0#256
  p := Vector.replicate 8 PReg.zero
  cmdCount := 0#32
  inFlight := none
  err := none
  errPc := 0#32
  errCmd := 0#32
  ladder := ⟨PReg.zero, PReg.zero, 0⟩
  inbox := []
  history := []
  latency := 0
  draws := 0

end Sys2Proof.Machine
end

