-- ==== Sys2Proof/Machine/Ops.lean ====
section
/-! DEFINITION. The named operations over the registers: reading and writing, retiring a command, raising an error and
clearing it (60_exceptions R104, R106), and drawing free values. -/

namespace Sys2Proof.Machine

/-! ### Registers (00_scope R11) -/

/-- `x[i]` as 256 bits. -/
def State.readF (s : State) (i : FIdx) : Reg := s.f[i]

/-- `x[i] <- v`. -/
def State.writeF (s : State) (i : FIdx) (v : Reg) : State := { s with f := s.f.set i.val v i.isLt }

/-- The stored triple of P register `i` (10_state R22). -/
def State.readP (s : State) (i : PIdx) : PReg := s.p[i]

/-- Store a triple in P register `i`. -/
def State.writeP (s : State) (i : PIdx) (r : PReg) : State := { s with p := s.p.set i.val r i.isLt }

/-! ### Retirement -/

/-- A command retires without error: CMDCOUNT advances modulo 2^32 and BUSY clears (10_state R24, R25; 00_scope R14, R18). -/
def State.retire (s : State) : State := { s with cmdCount := s.cmdCount + 1#32, inFlight := none, latency := 0 }

/-- The destination write and the retirement, one atomic step (00_scope R18); `v` is the exact result, below 2^256. -/
def State.finishF (s : State) (d : FIdx) (v : Nat) : State := (s.writeF d (BitVec.ofNat 256 v)).retire

/-- The same for a P destination. -/
def State.finishP (s : State) (d : PIdx) (r : PReg) : State := (s.writeP d r).retire

/-! ### Errors (60_exceptions) -/

/-- Latch error `c` caused by the word `w`, ERRPC taking CMDCOUNT; the first error wins (R103, R104, R107, R111). -/
def State.latchError (c : ErrorCode) (w : Word) (s : State) : State :=
  match s.err with
  | none => { s with err := some c, errPc := s.cmdCount, errCmd := w }
  | some _ => s

/-- Error entry: the in-flight command raises `c`. No register changes, CMDCOUNT stays, BUSY clears (R104, 00_scope R14).
With nothing in flight, which `step` never runs a command in, ERRCMD keeps its value (log entry 11). -/
def State.raise (c : ErrorCode) (s : State) : State :=
  { s.latchError c (s.inFlight.getD s.errCmd) with inFlight := none, latency := 0 }

/-- Error return, CTRL.ERRCLR: without effect when ERR = 0 (R106). -/
def State.clearError (s : State) : State :=
  match s.err with
  | none => s
  | some _ => { s with err := none, errPc := 0#32, errCmd := 0#32 }

/-! ### Free values -/

/-- INF as stored (00_scope R12). -/
def PReg.infinity : PReg := ⟨true, 0#256, 0#256⟩

/-- An unspecified P register, made from the draws `n` and `n + 1`: any triple the storage invariant of R22 admits, and no
other (DEDUCED, log entry 7). -/
def unspecifiedPoint (n : Nat) : PReg :=
  if Config.unspecifiedBit n then PReg.infinity
  else ⟨false, BitVec.ofNat 256 ((Config.unspecifiedReg n).toNat % Config.p),
    BitVec.ofNat 256 ((Config.unspecifiedReg (n + 1)).toNat % Config.p)⟩

/-- Unspecified working values of the ladder: two points and an index 0..255 (10_state R34), from the draws `n` to `n + 4`
(log entry 3). -/
def unspecifiedLadder (n : Nat) : Ladder :=
  ⟨unspecifiedPoint n, unspecifiedPoint (n + 2), (Config.unspecifiedReg (n + 4)).toNat % Config.mulIters⟩

/-- F register `d` becomes unspecified (R117, log entry 7). -/
def State.forgetF (d : FIdx) (s : State) : State :=
  { s.writeF d (Config.unspecifiedReg s.draws) with draws := s.draws + 1 }

/-- P register `d` becomes unspecified (R117, log entry 7). -/
def State.forgetP (d : PIdx) (s : State) : State :=
  { s.writeP d (unspecifiedPoint s.draws) with draws := s.draws + 2 }

/-- The ladder's working values become unspecified (log entry 3). -/
def State.forgetLadder (s : State) : State := { s with ladder := unspecifiedLadder s.draws, draws := s.draws + 5 }

end Sys2Proof.Machine
end

