-- ==== Sys2Proof/Machine/Operands.lean ====
section
/-! DEFINITION. The operand forms: an F register reduced or as its 256-bit natural (40_field R64), a P register as a point
value (00_scope R12), a 32-bit word or a byte of a register (20_memory R41, R42), a bit sequence (00_scope R16), and which
register a command writes. -/

namespace Sys2Proof.Machine

/-- `red(a)` (00_scope R15). -/
def red (a : Nat) : Nat := a % Config.p

/-- F register `i` as its full 256-bit natural. -/
def State.natF (s : State) (i : FIdx) : Nat := (s.readF i).toNat

/-- F register `i` as a field operand: reduced as it is read (R64). -/
def State.redF (s : State) (i : FIdx) : Nat := red (s.natF i)

/-- A point value (00_scope R12); coordinates are below p. -/
inductive Point where
  | inf
  | aff (x y : Nat)
  deriving DecidableEq, Repr

/-- The value of a stored point register (10_state R22). -/
def PReg.toPoint (r : PReg) : Point := if r.inf then .inf else .aff r.x.toNat r.y.toNat

/-- The stored form of a point value: INF as (1, 0, 0), Aff(x, y) as (0, x, y) (00_scope R12). -/
def Point.toPReg : Point → PReg
  | .inf => PReg.infinity
  | .aff x y => ⟨false, BitVec.ofNat 256 x, BitVec.ofNat 256 y⟩

/-- P register `i` as a point value. -/
def State.pointP (s : State) (i : PIdx) : Point := (s.readP i).toPoint

/-- Word `k` of a 256-bit value, word 0 the most significant (R41). -/
def wordOf (v : Reg) (k : Nat) : Word := v.extractLsb' (224 - 32 * k) 32

/-- `v` with word `k` replaced by `u` (20_memory R39, 42_bitpack R92). -/
def replaceWord (v : Reg) (k : Nat) (u : Word) : Reg :=
  (v &&& ~~~((0xFFFFFFFF#256) <<< (224 - 32 * k))) ||| (u.setWidth 256 <<< (224 - 32 * k))

/-- Byte `j` of the canonical big-endian encoding of `v` (R42). -/
def byteOf (v : Reg) (j : Nat) : BitVec 8 := v.extractLsb' (248 - 8 * j) 8

/-- The bit sequence of width `w` held as the natural `n`, most significant bit first (00_scope R16). -/
def bitSeq (w n : Nat) : List Bool := (List.range w).map fun i => n.testBit (w - 1 - i)

/-- pack_bits: the natural a most-significant-first sequence stands for (42_bitpack R94). -/
def packBits (l : List Bool) : Nat := l.foldl (fun acc b => 2 * acc + b.toNat) 0

/-- The register a command writes. -/
inductive Dest where
  | none
  | f (d : FIdx)
  | p (d : PIdx)
  deriving DecidableEq, Repr

/-- The destination of a command (30_encoding R56; 40_field to 43_move). -/
def destOf : Instr → Dest
  | .nop => .none
  | .mov d _ | .ldi d _ => .f d
  | .fadd d _ _ | .fsub d _ _ | .fmul d _ _ | .fdiv d _ _ | .finv d _ | .fexp d _ _ | .fexpm d _ _ _ | .fred d _ => .f d
  | .pgen d | .pset d _ _ | .pdbl d _ | .padd d _ _ | .pmul d _ _ => .p d
  | .px d _ | .py d _ => .f d
  | .bits d _ _ | .brev d _ _ | .wsplit d _ _ | .wins d _ _ | .fpack d _ _ => .f d

end Sys2Proof.Machine
end

