-- ==== Sys2Proof/Machine/Field.lean ====
section
/-! DEFINITION. The field unit: the field primitives (00_scope R15) and FADD, FSUB, FMUL, FDIV, FINV, FEXP, FEXPM, FRED
(40_field). -/

namespace Sys2Proof.Machine

/-! ### Primitives (00_scope R15) -/

/-- `(a + b) mod p`. -/
def fadd (a b : Nat) : Nat := (a + b) % Config.p

/-- `(a - b) mod p`, in [0, p) also when the difference is negative (00_scope R9). -/
def fsub (a b : Nat) : Nat := (((a : Int) - (b : Int)) % (Config.p : Int)).toNat

/-- `(a * b) mod p`. -/
def fmul (a b : Nat) : Nat := (a * b) % Config.p

/-- `a^e mod m` by squaring, for `e < 2^fuel`; exponent 0 gives `1 mod m`, so 1 when m > 1 and 0 when m = 1 (R15, D9, D10).
`Sys2Proof.Laws.powMod_eq` proves that it is the power. -/
def powMod (m : Nat) : Nat → Nat → Nat → Nat
  | 0, _, _ => 1 % m
  | fuel + 1, a, e =>
    if e = 0 then 1 % m
    else
      let h := powMod m fuel (a * a % m) (e / 2)
      if e % 2 = 1 then a * h % m else h

/-- `a^e mod p` for a 256-bit exponent. -/
def fpow (a e : Nat) : Nat := powMod Config.p 256 a e

/-- The inverse by exponentiation to p - 2; the spec defines it for `red(a) != 0` only (log entry 12). -/
def finv (a : Nat) : Nat := fpow a (Config.p - 2)

/-- `fmul(a, finv(b))`; the spec defines it for `red(b) != 0` only (log entry 12). -/
def fdiv (a b : Nat) : Nat := fmul a (finv b)

/-! ### Commands -/

/-- FADD (40_field R65). -/
def execFadd (d a b : FIdx) (s : State) : Out := .next (s.finishF d (fadd (s.redF a) (s.redF b)))

/-- FSUB (R66). -/
def execFsub (d a b : FIdx) (s : State) : Out := .next (s.finishF d (fsub (s.redF a) (s.redF b)))

/-- FMUL (R67). -/
def execFmul (d a b : FIdx) (s : State) : Out := .next (s.finishF d (fmul (s.redF a) (s.redF b)))

/-- FDIV: DIV_BY_ZERO when the divisor is 0 mod p (R68). -/
def execFdiv (d a b : FIdx) (s : State) : Out :=
  if s.redF b = 0 then .next (s.raise .divByZero)
  else .next (s.finishF d (fdiv (s.redF a) (s.redF b)))

/-- FINV: DIV_BY_ZERO when the operand is 0 mod p (R69). -/
def execFinv (d a : FIdx) (s : State) : Out :=
  if s.redF a = 0 then .next (s.raise .divByZero)
  else .next (s.finishF d (finv (s.redF a)))

/-- FEXP: the exponent is the whole register (R70). -/
def execFexp (d a b : FIdx) (s : State) : Out := .next (s.finishF d (fpow (s.redF a) (s.natF b)))

/-- The modulus of FEXPM: 0 selects p (R71). -/
def overrideModulus (m : Nat) : Nat := if m = 0 then Config.p else m

/-- FEXPM: no operand is reduced mod p; the base is reduced by the modulus in use (R71). -/
def execFexpm (d a b m : FIdx) (s : State) : Out :=
  let modulus := overrideModulus (s.natF m)
  .next (s.finishF d (powMod modulus 256 (s.natF a % modulus) (s.natF b)))

/-- FRED (R72). -/
def execFred (d a : FIdx) (s : State) : Out := .next (s.finishF d (s.redF a))

end Sys2Proof.Machine
end

