-- ==== Sys2Proof/Machine/Bitpack.lean ====
section
/-! DEFINITION. The bit-packing unit: BITS, BREV, WSPLIT, WINS, FPACK (42_bitpack). Operands are not reduced (R88). -/

namespace Sys2Proof.Machine

/-- The low `w` bits of `n` reversed: bit j of the result is bit w-1-j of `n` (R90). -/
def reverseBits : Nat → Nat → Nat
  | 0, _ => 0
  | w + 1, n => (n % 2) * 2 ^ w + reverseBits w (n / 2)

/-- BITS: ENCODING_RANGE when the source does not fit in `w` bits (R89). -/
def execBits (d a : FIdx) (w : Nat) (s : State) : Out :=
  if 2 ^ w ≤ s.natF a then .next (s.raise .encodingRange)
  else .next (s.finishF d (s.natF a))

/-- BREV: the same check, then the low `w` bits reversed (R90). -/
def execBrev (d a : FIdx) (w : Nat) (s : State) : Out :=
  if 2 ^ w ≤ s.natF a then .next (s.raise .encodingRange)
  else .next (s.finishF d (reverseBits w (s.natF a)))

/-- WSPLIT: word `k`, zero-extended (R91). -/
def execWsplit (d a : FIdx) (k : Nat) (s : State) : Out := .next (s.finishF d (wordOf (s.readF a) k).toNat)

/-- WINS: ENCODING_RANGE when the source exceeds 32 bits, else word `k` of the destination replaced (R92). -/
def execWins (d a : FIdx) (k : Nat) (s : State) : Out :=
  if 2 ^ 32 ≤ s.natF a then .next (s.raise .encodingRange)
  else .next (s.finishF d (replaceWord (s.readF d) k ((s.readF a).setWidth 32)).toNat)

/-- The four words 4h to 4h+3 of `v`, concatenated (R93). -/
def packWords (v : Reg) (h : Nat) : Nat :=
  (wordOf v (4 * h) ++ wordOf v (4 * h + 1) ++ wordOf v (4 * h + 2) ++ wordOf v (4 * h + 3)).toNat

/-- FPACK: four words reduced mod p (R93). -/
def execFpack (d a : FIdx) (h : Nat) (s : State) : Out := .next (s.finishF d (packWords (s.readF a) h % Config.p))

end Sys2Proof.Machine
end

