-- ==== Sys2Proof/Machine/Curve.lean ====
section
/-! DEFINITION. The curve unit: the point functions (41_curve R75-R78) and PGEN, PSET, PX, PY, PDBL, PADD, PMUL. -/

namespace Sys2Proof.Machine

/-! ### Point functions -/

/-- Point doubling (R76). -/
def pdbl : Point → Point
  | .inf => .inf
  | .aff x y =>
    if y = 0 then .inf
    else
      let l := fdiv (fmul 3 (fmul x x)) (fmul 2 y)
      let x3 := fsub (fmul l l) (fadd x x)
      .aff x3 (fsub (fmul l (fsub x x3)) y)

/-- Point addition (R77). -/
def padd : Point → Point → Point
  | .inf, q => q
  | .aff x1 y1, .inf => .aff x1 y1
  | .aff x1 y1, .aff x2 y2 =>
    if x1 = x2 ∧ y1 = y2 then pdbl (.aff x1 y1)
    else if x1 = x2 then .inf
    else
      let l := fdiv (fsub y2 y1) (fsub x2 x1)
      let x3 := fsub (fsub (fmul l l) x1) x2
      .aff x3 (fsub (fmul l (fsub x1 x3)) y1)

/-- The ladder's working values as point values (R78, 10_state R34). -/
structure LadderVals where
  result : Point
  addend : Point
  index : Nat
  deriving DecidableEq, Repr

/-- One iteration: test bit `index` of `n`, add, then double whatever the bit (R78). -/
def ladderStep (n : Nat) (l : LadderVals) : LadderVals :=
  { result := if n.testBit l.index then padd l.result l.addend else l.result
    addend := pdbl l.addend
    index := l.index + 1 }

/-- `k` iterations. -/
def ladderRun (n : Nat) : Nat → LadderVals → LadderVals
  | 0, l => l
  | k + 1, l => ladderRun n k (ladderStep n l)

/-- The whole ladder: 256 iterations from result INF and addend P (R78). -/
def ladderOf (q : Point) (n : Nat) : LadderVals := ladderRun n Config.mulIters ⟨.inf, q, 0⟩

/-- The early return of R78. -/
def ladderSkipped (q : Point) (n : Nat) : Bool := n == 0 || q == .inf

/-- Scalar multiplication (R78). -/
def pmul (q : Point) (n : Nat) : Point := if ladderSkipped q n then .inf else (ladderOf q n).result

/-- The working values as stored. -/
def LadderVals.toLadder (l : LadderVals) : Ladder := ⟨l.result.toPReg, l.addend.toPReg, l.index⟩

/-! ### Commands -/

/-- PGEN (R79). -/
def execPgen (d : PIdx) (s : State) : Out := .next (s.finishP d (Point.aff Config.g1x Config.g1y).toPReg)

/-- The point a coordinate pair stands for: (0, 0) is INF, no curve check (R80). -/
def pairPoint (xv yv : Nat) : Point := if xv = 0 ∧ yv = 0 then .inf else .aff xv yv

/-- PSET (R80). -/
def execPset (d : PIdx) (a b : FIdx) (s : State) : Out := .next (s.finishP d (pairPoint (s.redF a) (s.redF b)).toPReg)

/-- The x coordinate read out: 0 for INF (R81). -/
def Point.xOut : Point → Nat
  | .inf => 0
  | .aff x _ => x

/-- The y coordinate read out: 0 for INF (R82). -/
def Point.yOut : Point → Nat
  | .inf => 0
  | .aff _ y => y

/-- PX (R81). -/
def execPx (d : FIdx) (a : PIdx) (s : State) : Out := .next (s.finishF d (s.pointP a).xOut)

/-- PY (R82). -/
def execPy (d : FIdx) (a : PIdx) (s : State) : Out := .next (s.finishF d (s.pointP a).yOut)

/-- PDBL (R83). -/
def execPdbl (d a : PIdx) (s : State) : Out := .next (s.finishP d (pdbl (s.pointP a)).toPReg)

/-- PADD (R84). -/
def execPadd (d a b : PIdx) (s : State) : Out := .next (s.finishP d (padd (s.pointP a) (s.pointP b)).toPReg)

/-- The ladder register after PMUL: the final working values, or what it held where R78 returns early (log entry 3). -/
def ladderAfter (q : Point) (n : Nat) (old : Ladder) : Ladder :=
  if ladderSkipped q n then old else (ladderOf q n).toLadder

/-- PMUL: the scalar is the whole register (R85). -/
def execPmul (d a : PIdx) (b : FIdx) (s : State) : Out :=
  let q := s.pointP a
  let n := s.natF b
  .next ({ s with ladder := ladderAfter q n s.ladder }.finishP d (pmul q n).toPReg)

end Sys2Proof.Machine
end

