-- ==== Sys2Proof/Machine/Move.lean ====
section
/-! DEFINITION. NOP, MOV and LDI (43_move). -/

namespace Sys2Proof.Machine

/-- NOP: only CMDCOUNT advances (R96). -/
def execNop (s : State) : Out := .next s.retire

/-- MOV: all 256 bits, no reduction (R97). -/
def execMov (d a : FIdx) (s : State) : Out := .next (s.finishF d (s.natF a))

/-- LDI: the immediate zero-extended (R98). -/
def execLdi (d : FIdx) (imm : BitVec 16) (s : State) : Out := .next (s.finishF d imm.toNat)

end Sys2Proof.Machine
end

