-- ==== Sys2Proof/Machine/Dispatch.lean ====
section
/-! DEFINITION. One arm per command. -/

namespace Sys2Proof.Machine

/-- A command's retirement step (00_scope R18). -/
def exec (i : Instr) (s : State) : Host.Outcome State Fault Refusal :=
  match i with
  | .nop => Sys2Proof.Machine.execNop s
  | .mov d a => Sys2Proof.Machine.execMov d a s
  | .ldi d imm => Sys2Proof.Machine.execLdi d imm s
  | .fadd d a b => Sys2Proof.Machine.execFadd d a b s
  | .fsub d a b => Sys2Proof.Machine.execFsub d a b s
  | .fmul d a b => Sys2Proof.Machine.execFmul d a b s
  | .fdiv d a b => Sys2Proof.Machine.execFdiv d a b s
  | .finv d a => Sys2Proof.Machine.execFinv d a s
  | .fexp d a b => Sys2Proof.Machine.execFexp d a b s
  | .fexpm d a b m => Sys2Proof.Machine.execFexpm d a b m s
  | .fred d a => Sys2Proof.Machine.execFred d a s
  | .pgen d => Sys2Proof.Machine.execPgen d s
  | .pset d a b => Sys2Proof.Machine.execPset d a b s
  | .px d a => Sys2Proof.Machine.execPx d a s
  | .py d a => Sys2Proof.Machine.execPy d a s
  | .pdbl d a => Sys2Proof.Machine.execPdbl d a s
  | .padd d a b => Sys2Proof.Machine.execPadd d a b s
  | .pmul d a b => Sys2Proof.Machine.execPmul d a b s
  | .bits d a w => Sys2Proof.Machine.execBits d a w s
  | .brev d a w => Sys2Proof.Machine.execBrev d a w s
  | .wsplit d a k => Sys2Proof.Machine.execWsplit d a k s
  | .wins d a k => Sys2Proof.Machine.execWins d a k s
  | .fpack d a h => Sys2Proof.Machine.execFpack d a h s

end Sys2Proof.Machine
end

