-- ==== Sys2Proof/Machine/Flags.lean ====
section
/-! DEFINITION. The two flags and the status registers made from them (10_state R25, R28, R33). No command reads a flag. -/

namespace Sys2Proof.Machine

/-- STATUS.BUSY: a command is in flight (R28). -/
def State.busy (s : State) : Bool := s.inFlight.isSome

/-- STATUS.ERR: an error is latched (R28). -/
def State.errFlag (s : State) : Bool := s.err.isSome

/-- The code of an error cause (60_exceptions R102). -/
def ErrorCode.code : ErrorCode → BitVec 8
  | .divByZero => 0x01#8
  | .encodingRange => 0x02#8
  | .degenerateSample => 0x03#8
  | .illegalCommand => 0x10#8
  | .cmdOverrun => 0x12#8
  | .hostWriteBusy => 0x13#8

/-- STATUS.ERRCODE: 0x00 when ERR = 0 (R28). -/
def State.errCode (s : State) : BitVec 8 :=
  match s.err with
  | none => 0x00#8
  | some c => c.code

/-- The STATUS word: ERRCODE in 15:8, ERR in bit 1, BUSY in bit 0, reserved bits 0 (R28). -/
def State.statusWord (s : State) : Word :=
  0#16 ++ s.errCode ++ 0#6 ++ BitVec.ofBool s.errFlag ++ BitVec.ofBool s.busy

/-- One bit of PINF. -/
def State.infBit (s : State) (i : PIdx) : BitVec 1 := BitVec.ofBool (s.readP i).inf

/-- The PINF word: bit i is the inf field of P register i, bits 31:8 are 0 (R33). -/
def State.pinfWord (s : State) : Word :=
  0#24 ++ s.infBit 7 ++ s.infBit 6 ++ s.infBit 5 ++ s.infBit 4 ++ s.infBit 3 ++ s.infBit 2 ++ s.infBit 1 ++ s.infBit 0

end Sys2Proof.Machine
end

