-- ==== Sys2Proof/Machine/Reset.lean ====
section
/-! DEFINITION. The two resets (70_reset_and_hazards R116, R117). -/

namespace Sys2Proof.Machine

/-- The control state at the values of R116: BUSY, ERR, ERRCODE, CMDCOUNT, ERRPC, ERRCMD. -/
def State.resetControl (s : State) : State :=
  { s with cmdCount := 0#32, inFlight := none, latency := 0, err := none, errPc := 0#32, errCmd := 0#32 }

/-- The destination register becomes unspecified (R117, log entry 7). -/
def State.forgetDest (t : Dest) (s : State) : State :=
  match t with
  | .none => s
  | .f d => s.forgetF d
  | .p d => s.forgetP d

/-- The command word `w` in flight is abandoned: its destination becomes unspecified, and for PMUL the ladder's working
values too (R117, log entries 3 and 7). An illegal word has no destination (DEDUCED, log entry 7). -/
def State.abandon (w : Word) (s : State) : State :=
  match decode w with
  | .error _ => s
  | .ok i => if i.op = .pmul then (s.forgetDest (destOf i)).forgetLadder else s.forgetDest (destOf i)

/-- Soft reset, CTRL.SRST (R117). -/
def State.softReset (s : State) : State :=
  match s.inFlight with
  | none => s.resetControl
  | some w => (s.abandon w).resetControl

/-- Hard reset during a run: the control state of R116; every F and P register, and the ladder, unspecified (R21, R23; log
entries 3 and 8). The host's moves and the record of them are not the block's state. -/
def State.hardReset (s : State) : State :=
  { s.resetControl with
    f := Vector.ofFn fun i : Fin 16 => Config.unspecifiedReg (s.draws + i.val)
    p := Vector.ofFn fun i : Fin 8 => unspecifiedPoint (s.draws + 16 + 2 * i.val)
    ladder := unspecifiedLadder (s.draws + 32)
    draws := s.draws + 37 }

end Sys2Proof.Machine
end

