-- ==== Sys2Proof/Machine/Port.lean ====
section
/-! DEFINITION. The host port (20_memory): the address map, what a read returns, what a write does. -/

namespace Sys2Proof.Machine

/-- What stands at a word of the port (R37). -/
inductive PortReg where
  | id | ctrl | status | cmd | cmdCount | errPc | errCmd | pinf
  | fWord (i : FIdx) (k : Fin 8)
  | pXWord (i : PIdx) (k : Fin 8)
  | pYWord (i : PIdx) (k : Fin 8)
  | reserved
  deriving DecidableEq, Repr

/-- Word `k` of F register `i` stands at offset 0x100 + 0x20*i + 4*k (R39). -/
def fWordAt (n : Nat) : PortReg := .fWord (Fin.ofNat 16 ((n - 0x100) / 0x20)) (Fin.ofNat 8 (n % 0x20 / 4))

/-- Word `k` of x of P register `i` stands at offset 0x400 + 0x40*i + 4*k, of y 0x20 above it (R40). -/
def pWordAt (n : Nat) : PortReg :=
  if n % 0x40 < 0x20 then .pXWord (Fin.ofNat 8 ((n - 0x400) / 0x40)) (Fin.ofNat 8 (n % 0x20 / 4))
  else .pYWord (Fin.ofNat 8 ((n - 0x400) / 0x40)) (Fin.ofNat 8 (n % 0x20 / 4))

/-- The registers below 0x020 (R37). -/
def controlAt (n : Nat) : PortReg :=
  if n = 0x000 then .id
  else if n = 0x004 then .ctrl
  else if n = 0x008 then .status
  else if n = 0x00C then .cmd
  else if n = 0x010 then .cmdCount
  else if n = 0x014 then .errPc
  else if n = 0x018 then .errCmd
  else if n = 0x01C then .pinf
  else .reserved

/-- The address map for an aligned offset (R37). -/
def portReg (off : Offset) : PortReg :=
  let n := off.toNat
  if n < 0x020 then controlAt n
  else if 0x100 ≤ n ∧ n < 0x300 then fWordAt n
  else if 0x400 ≤ n ∧ n < 0x600 then pWordAt n
  else .reserved

/-- The accesses the port takes: 32 bits wide at a multiple of 4 (R38). -/
def accepted (width : Width) (off : Offset) : Bool := width == .word && off.toNat % 4 == 0

/-- What a read finds. -/
inductive PortValue where
  | value (v : Word)
  | unspecified
  deriving DecidableEq, Repr

/-- What a read of the F window, the P window or PINF finds: unspecified while BUSY = 1 (R45). -/
def State.whileIdle (s : State) (v : Word) : PortValue := if s.busy then .unspecified else .value v

/-- HostRead of a word of the port (R37, R39, R40, R45; 10_state R26-R33). -/
def State.portRead (s : State) : PortReg → PortValue
  | .id => .value Config.idValue
  | .ctrl => .value 0#32
  | .status => .value s.statusWord
  | .cmd => .value 0#32
  | .cmdCount => .value s.cmdCount
  | .errPc => .value s.errPc
  | .errCmd => .value s.errCmd
  | .pinf => s.whileIdle s.pinfWord
  | .fWord i k => s.whileIdle (wordOf (s.readF i) k.val)
  | .pXWord i k => s.whileIdle (wordOf (s.readP i).x k.val)
  | .pYWord i k => s.whileIdle (wordOf (s.readP i).y k.val)
  | .reserved => .value 0#32

/-- One more event stands in the record (log entry 4). -/
def State.record (e : PortEvent) (s : State) : State := { s with history := s.history ++ [e] }

/-- The reply of a read reaches the host; an unspecified one is a fresh free value (R45, log entries 4 and 6). -/
def State.reply (width : Width) (off : Offset) (s : State) : PortValue → State
  | .value v => s.record (.read width off v)
  | .unspecified => { s with draws := s.draws + 1 }.record (.read width off (Config.busyRead s.draws))

/-- HostRead: no effect on the block (R44); an access the port does not take reads 0 (R38, log entry 13). -/
def State.hostRead (width : Width) (off : Offset) (s : State) : State :=
  s.reply width off (if accepted width off then s.portRead (portReg off) else .value 0#32)

/-- A write to CMD: accepted when BUSY = 0 and ERR = 0; CMD_OVERRUN while BUSY; dropped silently while ERR
(10_state R29; 60_exceptions R105, R107). An accepted command draws its latency (log entry 5). -/
def State.writeCmd (w : Word) (s : State) : State :=
  if s.busy then s.latchError .cmdOverrun w
  else if s.errFlag then s
  else { s with inFlight := some w, latency := Config.latency s.draws, draws := s.draws + 1 }

/-- A write to CTRL, performed at all times; SRST takes precedence over ERRCLR (10_state R27; 60_exceptions R106, R108). -/
def State.writeCtrl (v : Word) (s : State) : State :=
  if v.getLsbD 0 then s.softReset
  else if v.getLsbD 1 then s.clearError
  else s

/-- A write to the F window: dropped with HOST_WRITE_BUSY while BUSY = 1 (20_memory R39; 60_exceptions R108). -/
def State.writeFWord (i : FIdx) (k : Fin 8) (v : Word) (s : State) : State :=
  if s.busy then s.latchError .hostWriteBusy 0#32
  else s.writeF i (replaceWord (s.readF i) k.val v)

/-- HostWrite to a word of the port; a read-only or reserved word ignores it (R37, R44). -/
def State.portWrite (s : State) (v : Word) : PortReg → State
  | .cmd => s.writeCmd v
  | .ctrl => s.writeCtrl v
  | .fWord i k => s.writeFWord i k v
  | .id | .status | .cmdCount | .errPc | .errCmd | .pinf | .pXWord _ _ | .pYWord _ _ | .reserved => s

/-- HostWrite: an access the port does not take has no effect (R38). -/
def State.hostWrite (width : Width) (off : Offset) (v : Word) (s : State) : State :=
  if accepted width off then s.portWrite v (portReg off) else s

/-- The platform address of a port offset (R37, 00_scope R8; log entry 9). -/
def platformAddress (off : Offset) : Nat := Config.portBase + off.toNat

/-- One move of the world outside the block, and its record. -/
def State.perform (m : HostMove) (s : State) : State :=
  match m with
  | .read width off => s.hostRead width off
  | .write width off v => (s.hostWrite width off v).record (.write width off v)
  | .hardReset => s.hardReset.record .hardReset

/-- The next move of the world outside, taken from the list and performed; nothing happens when there is none
(60_exceptions R115: the block is idle). -/
def State.hostMove (s : State) : State :=
  match s.inbox with
  | [] => s
  | m :: rest => { s with inbox := rest, latency := s.latency - 1 }.perform m

end Sys2Proof.Machine
end

