-- ==== Sys2Proof/Machine/Sequencer.lean ====
section
/-! DEFINITION. The sequencer: when it moves, and what it does with the accepted word (00_scope R18, 30_encoding R59). -/

namespace Sys2Proof.Machine

/-- The command word the sequencer retires in this step: the one in flight, once no host move precedes its retirement
(60_exceptions R110, log entry 5). -/
def State.dueCommand (s : State) : Option Word :=
  if s.latency = 0 ∨ s.inbox = [] then s.inFlight else none

/-- Decode and perform the accepted word; an illegal one raises ILLEGAL_COMMAND (30_encoding R59, R60). -/
def runCommand (w : Word) (s : State) : Out :=
  match decode w with
  | .ok i => exec i s
  | .error _ => .next (s.raise .illegalCommand)

/-- The state with a word just accepted and due: what a host's write of it to CMD leads to (log entry 10). -/
def State.offer (s : State) (w : Word) : State := { s with inFlight := some w, latency := 0 }

end Sys2Proof.Machine
end

