-- ==== Sys2Proof/Machine/Step.lean ====
section
/-! DEFINITION. One step: one move of the sequencer or one move of the host (00_scope R18). -/

namespace Sys2Proof.Machine

/-- The sequencer's retirement step when a command is due, else the host's next move. -/
def step (s : State) : Host.Outcome State Fault Refusal :=
  match s.dueCommand with
  | some w => runCommand w s
  | none => .next s.hostMove

/-- The state whose next step runs the command with these bits (log entry 10). -/
def State.withFetchWord (s : State) (nbits w : Nat) : State := s.offer (BitVec.ofNat 32 (w % 2 ^ nbits))

end Sys2Proof.Machine
end

