-- ==== Sys2Proof/Machine/Assembler.lean ====
section
/-! DEFINITION. The assembler (30_encoding R61) and the pseudo-instructions (R62). It is a tool beside the block: nothing in
`step` uses it. -/

namespace Sys2Proof.Machine

/-! ### Pseudo-instructions -/

/-- The pseudo-instructions (R62). -/
inductive Pseudo where
  | packb (d a : FIdx)
  | int2bits (d a : FIdx) (w : Nat)
  | fsqr (d a : FIdx)
  | fzero (d : FIdx)
  | pinf (d : PIdx) (t : FIdx)
  | fneg (d a t : FIdx)
  | pcopy (d a : PIdx) (t : FIdx)
  deriving DecidableEq, Repr

/-- The expansion of a pseudo-instruction (R62). -/
def Pseudo.expand : Pseudo → List Instr
  | .packb d a => [.mov d a]
  | .int2bits d a w => [.bits d a w]
  | .fsqr d a => [.fmul d a a]
  | .fzero d => [.ldi d 0#16]
  | .pinf d t => [.ldi t 0#16, .pset d t t]
  | .fneg d a t => [.ldi t 0#16, .fsub d t a]
  | .pcopy d a t => [.ldi t 1#16, .pmul d a t]

/-- The requirement of FNEG (R62). -/
def Pseudo.allowed : Pseudo → Bool
  | .fneg _ a t => t != a
  | .packb .. | .int2bits .. | .fsqr .. | .fzero .. | .pinf .. | .pcopy .. => true

/-! ### Text (R61) -/

/-- An operand as written. -/
inductive Operand where
  | f (i : FIdx)
  | p (i : PIdx)
  | num (n : Nat)
  deriving DecidableEq, Repr

/-- The value of a digit. -/
def digitVal (c : Char) : Option Nat :=
  if '0' ≤ c ∧ c ≤ '9' then some (c.toNat - '0'.toNat)
  else if 'A' ≤ c ∧ c ≤ 'F' then some (c.toNat - 'A'.toNat + 10)
  else none

/-- The digits of a number in a base, most significant first; `acc` is what has been read. -/
def parseDigits (base : Nat) : Nat → List Char → Option Nat
  | acc, [] => some acc
  | acc, c :: cs =>
    match digitVal c with
    | none => none
    | some v => if v < base then parseDigits base (base * acc + v) cs else none

/-- A number with at least one digit: decimal, or hexadecimal after 0x (R61). The text is in capitals already. -/
def parseNum : List Char → Option Nat
  | [] => none
  | '0' :: 'X' :: c :: cs => parseDigits 16 0 (c :: cs)
  | c :: cs => parseDigits 10 0 (c :: cs)

/-- A decimal register number. -/
def parseIndex : List Char → Option Nat
  | [] => none
  | c :: cs => parseDigits 10 0 (c :: cs)

/-- One operand: F0..F15, P0..P7 or a number. -/
def parseOperand : List Char → Option Operand
  | 'F' :: cs => (parseIndex cs).bind fun n => if h : n < 16 then some (.f ⟨n, h⟩) else none
  | 'P' :: cs => (parseIndex cs).bind fun n => if h : n < 8 then some (.p ⟨n, h⟩) else none
  | cs => (parseNum cs).map .num

/-- The pieces of a text between separators. -/
def splitAt (sep : Char) : List Char → List (List Char)
  | [] => [[]]
  | c :: cs =>
    if c = sep then [] :: splitAt sep cs
    else
      match splitAt sep cs with
      | [] => [[c]]
      | piece :: rest => (c :: piece) :: rest

/-- A piece without the blanks around it. -/
def trimBlanks (cs : List Char) : List Char :=
  ((cs.dropWhile Char.isWhitespace).reverse.dropWhile Char.isWhitespace).reverse

/-- Every operand of a list, or none where one does not parse. -/
def parseOperands : List (List Char) → Option (List Operand)
  | [] => some []
  | cs :: rest => (parseOperand (trimBlanks cs)).bind fun o => (parseOperands rest).map fun os => o :: os

/-- The command of a row with the operands in the order of R61; none where their number or kind is wrong. -/
def Op.withOperands (o : Op) (ops : List Operand) : Option Instr :=
  match o, ops with
  | .nop, [] => some .nop
  | .mov, [.f d, .f a] => some (.mov d a)
  | .ldi, [.f d, .num n] => if n < 2 ^ 16 then some (.ldi d (BitVec.ofNat 16 n)) else none
  | .fadd, [.f d, .f a, .f b] => some (.fadd d a b)
  | .fsub, [.f d, .f a, .f b] => some (.fsub d a b)
  | .fmul, [.f d, .f a, .f b] => some (.fmul d a b)
  | .fdiv, [.f d, .f a, .f b] => some (.fdiv d a b)
  | .finv, [.f d, .f a] => some (.finv d a)
  | .fexp, [.f d, .f a, .f b] => some (.fexp d a b)
  | .fexpm, [.f d, .f a, .f b, .f m] => some (.fexpm d a b m)
  | .fred, [.f d, .f a] => some (.fred d a)
  | .pgen, [.p d] => some (.pgen d)
  | .pset, [.p d, .f a, .f b] => some (.pset d a b)
  | .px, [.f d, .p a] => some (.px d a)
  | .py, [.f d, .p a] => some (.py d a)
  | .pdbl, [.p d, .p a] => some (.pdbl d a)
  | .padd, [.p d, .p a, .p b] => some (.padd d a b)
  | .pmul, [.p d, .p a, .f b] => some (.pmul d a b)
  | .bits, [.f d, .f a, .num w] => some (.bits d a w)
  | .brev, [.f d, .f a, .num w] => some (.brev d a w)
  | .wsplit, [.f d, .f a, .num k] => some (.wsplit d a k)
  | .wins, [.f d, .f a, .num k] => some (.wins d a k)
  | .fpack, [.f d, .f a, .num h] => some (.fpack d a h)
  | _, _ => none

/-- The pseudo-instruction of a name with its operands (R62). -/
def pseudoOf (name : List Char) (ops : List Operand) : Option Pseudo :=
  match ops with
  | [.f d, .f a] =>
    if name = "PACKB".toList then some (.packb d a)
    else if name = "FSQR".toList then some (.fsqr d a)
    else none
  | [.f d, .f a, .num w] => if name = "INT2BITS".toList then some (.int2bits d a w) else none
  | [.f d] => if name = "FZERO".toList then some (.fzero d) else none
  | [.p d, .f t] => if name = "PINF".toList then some (.pinf d t) else none
  | [.f d, .f a, .f t] => if name = "FNEG".toList then some (.fneg d a t) else none
  | [.p d, .p a, .f t] => if name = "PCOPY".toList then some (.pcopy d a t) else none
  | _ => none

/-- The commands a name and its operands stand for: a row of the opcode map, or an expanded pseudo-instruction. -/
def commandsOf (name : List Char) (ops : List Operand) : Option (List Instr) :=
  match Op.all.find? (fun o => o.mnemonic.toList == name) with
  | some o => (Op.withOperands o ops).map fun i => [i]
  | none => (pseudoOf name ops).bind fun q => if q.allowed then some q.expand else none

/-- The words of some commands; an assembler refuses an operand out of range, it does not wrap it (R61). -/
def assemble (is : List Instr) : Option (List Word) :=
  if is.all Instr.wellFormed then some (is.map encode) else none

/-- One line of assembly text: case-insensitive, `;` starts a comment, an empty line stands for nothing (R61). -/
def assembleChars (line : List Char) : Option (List Word) :=
  let text := trimBlanks ((line.takeWhile (· ≠ ';')).map Char.toUpper)
  let name := text.takeWhile fun c => !c.isWhitespace
  let rest := trimBlanks (text.dropWhile fun c => !c.isWhitespace)
  if text = [] then some []
  else
    (parseOperands (if rest = [] then [] else splitAt ',' rest)).bind fun ops =>
      (commandsOf name ops).bind assemble

/-- One line of assembly text as a string. -/
def assembleLine (line : String) : Option (List Word) := assembleChars line.toList

end Sys2Proof.Machine
end

