-- ==== Sys2Proof/Machine/Observe.lean ====
section
/-! DEFINITION. The end of a run and what is observed after it (00_scope R19), read off the record of the port. -/

namespace Sys2Proof.Machine

/-- A write of this width at this offset is a write to CMD (10_state R29). -/
def isCmdWrite (width : Width) (off : Offset) : Bool := accepted width off && portReg off == .cmd

/-- A move that writes a command word to CMD. -/
def HostMove.offersCommand : HostMove → Bool
  | .write width off _ => isCmdWrite width off
  | .read .. | .hardReset => false

/-- An event in which a command word was written to CMD. -/
def PortEvent.offersCommand : PortEvent → Bool
  | .write width off _ => isCmdWrite width off
  | .read .. | .hardReset => false

/-- A HostRead of STATUS that returned BUSY = 0. -/
def PortEvent.seesIdle : PortEvent → Bool
  | .read width off v => accepted width off && portReg off == .status && !v.getLsbD 0
  | .write .. | .hardReset => false

/-- The events after the last write of a command word; all of them when there is none. -/
def sinceLastCommand (h : List PortEvent) : List PortEvent := (h.reverse.takeWhile fun e => !e.offersCommand).reverse

/-- The host has written its last command, and a later HostRead of STATUS returned BUSY = 0 (R19). -/
def State.runOver (s : State) : Bool :=
  (s.inbox.all fun m => !m.offersCommand) && (sinceLastCommand s.history).any PortEvent.seesIdle

/-- The run of a command sequence is over (R19). -/
abbrev State.RunOver (s : State) : Prop := s.runOver = true

/-- The registers whose reads make the observation (R19). -/
def PortReg.observed : PortReg → Bool
  | .status | .cmdCount | .errPc | .errCmd | .pinf | .fWord _ _ | .pXWord _ _ | .pYWord _ _ => true
  | .id | .ctrl | .cmd | .reserved => false

/-- What a read of an observed register returned, with its offset. -/
def PortEvent.observed : PortEvent → Option (Offset × Word)
  | .read width off v => if accepted width off && (portReg off).observed then some (off, v) else none
  | .write .. | .hardReset => none

/-- The events after the HostRead of STATUS that ended the run (DEDUCED, log entry 20: that read is not among them). -/
def afterRun (h : List PortEvent) : List PortEvent := ((sinceLastCommand h).dropWhile fun e => !e.seesIdle).drop 1

/-- The observation: what the HostReads after the end of the run returned (R19), oldest first. -/
def State.observation (s : State) : List (Offset × Word) := (afterRun s.history).filterMap PortEvent.observed

end Sys2Proof.Machine
end

