-- ==== Sys2Proof/Safety.lean ====
section
/-! DEFINITION. The terms claims about the FFEC block use: what a retired or a failed command leaves, the invariants of the
state, points on the curve, and runs. -/

namespace Sys2Proof.Machine

/-! ### What a command leaves unchanged -/

/-- The error latch is the same (10_state R34). -/
structure SameLatch (s t : State) : Prop where
  err : t.err = s.err
  errPc : t.errPc = s.errPc
  errCmd : t.errCmd = s.errCmd

/-- The host's side is the same: the moves still to come, the record of the port, the free values drawn. -/
structure SameHost (s t : State) : Prop where
  inbox : t.inbox = s.inbox
  history : t.history = s.history
  draws : t.draws = s.draws

/-- Every register a command can write is the same. -/
structure SameRegs (s t : State) : Prop where
  f : ∀ i, t.readF i = s.readF i
  p : ∀ i, t.readP i = s.readP i
  ladder : t.ladder = s.ladder

/-- `t` is what the retirement of a command without error makes of `s`, its destination apart: CMDCOUNT advances by one
modulo 2^32, BUSY clears, the latch and the host's side stay (10_state R24, R25; 00_scope R18). -/
structure Retired (s t : State) : Prop where
  count : t.cmdCount = s.cmdCount + 1#32
  idle : t.busy = false
  latch : SameLatch s t
  host : SameHost s t

/-- Of the registers, at most F register `d` differs. -/
structure OnlyF (d : FIdx) (s t : State) : Prop where
  f : ∀ i, i ≠ d → t.readF i = s.readF i
  p : ∀ i, t.readP i = s.readP i
  ladder : t.ladder = s.ladder

/-- Of the F and P registers, at most P register `d` differs. -/
structure OnlyP (d : PIdx) (s t : State) : Prop where
  f : ∀ i, t.readF i = s.readF i
  p : ∀ i, i ≠ d → t.readP i = s.readP i

/-- A command with destination F register `d` retired with the result `v`. -/
structure RetiredF (d : FIdx) (v : Nat) (s t : State) : Prop where
  value : t.natF d = v
  frame : OnlyF d s t
  retired : Retired s t

/-- A command with destination P register `d` retired with the stored result `r`. -/
structure RetiredP (d : PIdx) (r : PReg) (s t : State) : Prop where
  value : t.readP d = r
  frame : OnlyP d s t
  retired : Retired s t

/-- Error `c`, caused by the word `w`, is latched unless an earlier one is (60_exceptions R103, R104, R111). -/
structure Latched (c : ErrorCode) (w : Word) (s t : State) : Prop where
  first : s.err = none → t.err = some c ∧ t.errPc = s.cmdCount ∧ t.errCmd = w
  later : s.err ≠ none → SameLatch s t

/-- `t` is what error entry makes of `s`: no register and not CMDCOUNT changes, BUSY clears, the latch takes the error
(60_exceptions R104). -/
structure Raised (c : ErrorCode) (w : Word) (s t : State) : Prop where
  regs : SameRegs s t
  count : t.cmdCount = s.cmdCount
  idle : t.busy = false
  host : SameHost s t
  latch : Latched c w s t

/-- Of the registers, at most the destination of a command differs; the ladder's working values may differ where the
destination is a P register. -/
def OnlyDest : Dest → State → State → Prop
  | .none, s, t => SameRegs s t
  | .f d, s, t => OnlyF d s t
  | .p d, s, t => OnlyP d s t

/-- What a host read leaves: the value `v` returned to the host, and the block as it was (20_memory R44). -/
structure Replied (width : Width) (off : Offset) (v : Word) (s t : State) : Prop where
  regs : SameRegs s t
  latch : SameLatch s t
  count : t.cmdCount = s.cmdCount
  inFlight : t.inFlight = s.inFlight
  history : t.history = s.history ++ [.read width off v]

/-- The opcode and the format of a command; its word has the fixed bits of its row: the opcode, and zeros in every bit that
must be zero (30_encoding R55, R58). -/
structure Encoded (i : Instr) (opc : BitVec 8) (f : Format) : Prop where
  opc : i.op.opc = opc
  format : i.op.format = f
  fixed : encode i &&& i.op.mask = i.op.pattern

/-! ### Points -/

/-- The storage invariant of a P register (10_state R22). -/
abbrev PReg.Stored (r : PReg) : Prop :=
  (r.inf = true → r.x = 0#256 ∧ r.y = 0#256) ∧ (r.inf = false → r.x.toNat < Config.p ∧ r.y.toNat < Config.p)

/-- A point value: coordinates below p (00_scope R12). -/
abbrev Point.Canonical : Point → Prop
  | .inf => True
  | .aff x y => x < Config.p ∧ y < Config.p

/-- A point of the curve y^2 = x^3 + 3 over GF(p), or its identity (00_scope R7). -/
abbrev Point.OnCurve : Point → Prop
  | .inf => True
  | .aff x y => x < Config.p ∧ y < Config.p ∧ y ^ 2 % Config.p = (x ^ 3 + Config.curveB) % Config.p

/-- (x3, y3) is the sum that the chord or tangent of slope `l` through (x1, y1) gives: the reflection of the point in which it
meets the curve again, x2 being the other x coordinate. The last lines of R76 and R77, as congruences. -/
structure SlopeSum (l x1 y1 x2 x3 y3 : Nat) : Prop where
  x_lt : x3 < Config.p
  y_lt : y3 < Config.p
  x : (x3 + x1 + x2) % Config.p = l ^ 2 % Config.p
  y : (y3 + y1 + l * x3) % Config.p = (l * x1) % Config.p

/-- The loop of R78 with no early return, written as a fold over the iterations 0 to 255: the pair (result, addend). -/
def ladderFold (q : Point) (n : Nat) : Point × Point :=
  (List.range Config.mulIters).foldl
    (fun acc i => (if n.testBit i then padd acc.1 acc.2 else acc.1, pdbl acc.2)) (Point.inf, q)

/-- The generator as a point value (R7). -/
def generator : Point := .aff Config.g1x Config.g1y

/-! ### Invariants -/

/-- Every P register, and each point of the ladder, meets the storage invariant (10_state R22). -/
abbrev State.PointsStored (s : State) : Prop :=
  (∀ i : PIdx, (s.readP i).Stored) ∧ s.ladder.result.Stored ∧ s.ladder.addend.Stored

/-- With no error latched ERRPC and ERRCMD are 0; the reserved cause is never latched (10_state R31, R32; 60_exceptions R102). -/
abbrev State.LatchSound (s : State) : Prop :=
  (s.err = none → s.errPc = 0#32 ∧ s.errCmd = 0#32) ∧ s.err ≠ some .degenerateSample

/-- BUSY and ERR together only under a host error (10_state R28). -/
abbrev State.BusyErrIsHostError (s : State) : Prop :=
  s.busy = true → s.err ≠ none → s.err = some .cmdOverrun ∨ s.err = some .hostWriteBusy

/-- What every step keeps. -/
abbrev State.Inv (s : State) : Prop := s.PointsStored ∧ s.LatchSound ∧ s.BusyErrIsHostError

/-! ### Runs -/

/-- Two commands one after the other. -/
def execTwo (i j : Instr) (s : State) : Out :=
  match exec i s with
  | .next t => exec j t
  | .fault e => .fault e
  | .refused r => .refused r

end Sys2Proof.Machine
end

