-- ==== Sys2Proof/Certificates/Slice0/Obligations.lean ====
section
/-! DEFINITION. The statements for the provers, each from numbered rules of spec/. `RetiredF d v s t` says that the command
retired with the value v in F register d and every other register, the error latch and the host's side as they were. -/

section

open Sys2Proof Sys2Proof.Machine

/-! ### Encoding -/

/-- R54-R58, R61: the decoder gives back every well-formed command from its word, each operand at every value. -/
def Obligations.DecodeEncodeRoundTrip : Prop := ∀ i : Instr, i.WellFormed → decode (encode i) = .ok i

/-- R59, R60: a word decodes to at most one command, which is well-formed and encodes to that very word. -/
def Obligations.EncodeDecodeRoundTrip : Prop := ∀ (w : Word) (i : Instr), decode w = .ok i → i.WellFormed ∧ encode i = w

/-- R58: a word encodes the command of a row exactly when its bits under the row's mask are the row's match. -/
def Obligations.DecoderAgreesWithOpcodeMap : Prop :=
  ∀ (w : Word) (o : Op), (∃ i, decode w = .ok i ∧ i.op = o) ↔ w &&& o.mask = o.pattern

/-- Words of 95_test_vectors section 2.5 and 2.3, one of each family: the legal ones decode as listed there, and the four listed
as ILLEGAL_COMMAND are refused. Which of the three kinds of R60 the decoder names for each is the model's choice (log entry
19). -/
def Obligations.SpecWordsDecodeAsListed : Prop :=
  decode 0x00000000#32 = .ok .nop ∧ decode 0x01230000#32 = .ok (.mov 2 3) ∧ decode 0x02301234#32 = .ok (.ldi 3 0x1234#16) ∧
    decode 0x10123000#32 = .ok (.fadd 1 2 3) ∧ decode 0x16123400#32 = .ok (.fexpm 1 2 3 4) ∧
    decode 0x2601F000#32 = .ok (.pmul 0 1 15) ∧ decode 0x300100FF#32 = .ok (.bits 0 1 256) ∧
    decode 0x33E40003#32 = .ok (.wins 14 4 3) ∧ decode 0x34010002#32 = .error .fieldRange ∧
    decode 0x20800000#32 = .error .fieldRange ∧ decode 0x1012300F#32 = .error .mustBeZero ∧
    decode 0x35000000#32 = .error .reservedOpcode

/-! ### The step -/

/-- When the accepted word is due and decodes to a command, the step is that command's retirement and nothing around it
(R18, R59). -/
def Obligations.StepRunsDecodedCommand : Prop :=
  ∀ (s : State) (w : Word) (i : Instr), s.inFlight = some w → s.latency = 0 ∨ s.inbox = [] → decode w = .ok i →
    step s = exec i s

/-- R59, R60: an accepted word that is in no row of the opcode map raises ILLEGAL_COMMAND; it changes no register and does not
advance CMDCOUNT. -/
def Obligations.IllegalWordRaisesIllegalCommand : Prop :=
  ∀ (s : State) (w : Word), s.inFlight = some w → s.latency = 0 ∨ s.inbox = [] →
    (∀ o : Op, w &&& o.mask ≠ o.pattern) →
    ErrorCode.illegalCommand.code = 0x10#8 ∧ ∃ t, step s = .next t ∧ Raised .illegalCommand w s t

/-- R24, R102, R104, R109: an accepted word that is performed either retires as its command, writing at most that command's destination,
or raises one error, which is all it does; only FDIV and FINV raise DIV_BY_ZERO, only BITS, BREV and WINS raise
ENCODING_RANGE, and just the words that decode to no command raise ILLEGAL_COMMAND. That no command reports two errors is an
inference that R109 marks as its own ("[derived: ...]"). -/
def Obligations.CommandRetiresOrRaisesOneError : Prop :=
  ∀ (s : State) (w : Word), s.inFlight = some w → ∃ t, runCommand w s = .next t ∧
    ((∃ i, decode w = .ok i ∧ Retired s t ∧ OnlyDest (destOf i) s t) ∨
      (∃ i, decode w = .ok i ∧ i.op ∈ [Op.fdiv, Op.finv] ∧ Raised .divByZero w s t) ∨
      (∃ i, decode w = .ok i ∧ i.op ∈ [Op.bits, Op.brev, Op.wins] ∧ Raised .encodingRange w s t) ∨
      (∃ e, decode w = .error e ∧ Raised .illegalCommand w s t))

/-- R125: an accepted command retires, raises an error or is abandoned by a reset after finitely many steps, whatever the host
does meanwhile. That the bound is the latency drawn for it, counted in host moves, is the model's choice (log entry 5). -/
def Obligations.AcceptedCommandEndsInBoundedSteps : Prop :=
  ∀ s : State, s.busy = true → ∃ k t, 0 < k ∧ k ≤ s.latency + 1 ∧ Sys2Proof.core.run k s = .next t ∧ t.busy = false

/-- R110: a host move and a retirement that are both possible may happen in either order: which comes first is decided by the
latency alone, a free value (the model's choice, log entry 5). When no command is due, the host's next move is performed. -/
def Obligations.HostMoveAndRetirementInEitherOrder : Prop :=
  ∀ (s : State) (w : Word) (m : HostMove) (rest : List HostMove), s.inFlight = some w → s.inbox = m :: rest →
    step { s with latency := 0 } = runCommand w { s with latency := 0 } ∧
    (∀ n, step { s with latency := n + 1 } = .next ({ s with inbox := rest, latency := n }.perform m)) ∧
    ∀ u : State, u.inbox = m :: rest → u.dueCommand = none →
      step u = .next ({ u with inbox := rest, latency := u.latency - 1 }.perform m)

/-! ### Field unit -/

/-- R65: FADD. -/
def Obligations.FaddGivesSumModP : Prop :=
  ∀ (d a b : FIdx) (s : State), Encoded (.fadd d a b) 0x10#8 .r3 ∧
    ∃ t, exec (.fadd d a b) s = .next t ∧ RetiredF d ((s.natF a + s.natF b) % Config.p) s t

/-- R66: FSUB; the result is in [0, p) also when the difference is negative. -/
def Obligations.FsubGivesDifferenceModP : Prop :=
  ∀ (d a b : FIdx) (s : State), Encoded (.fsub d a b) 0x11#8 .r3 ∧
    ∃ t v, exec (.fsub d a b) s = .next t ∧ RetiredF d v s t ∧ v < Config.p ∧
      (v : Int) = ((s.natF a : Int) - (s.natF b : Int)) % (Config.p : Int)

/-- R67: FMUL. -/
def Obligations.FmulGivesProductModP : Prop :=
  ∀ (d a b : FIdx) (s : State), Encoded (.fmul d a b) 0x12#8 .r3 ∧
    ∃ t, exec (.fmul d a b) s = .next t ∧ RetiredF d ((s.natF a * s.natF b) % Config.p) s t

/-- R68: FDIV retires for a divisor that is not 0 mod p and raises DIV_BY_ZERO for every multiple of p. -/
def Obligations.FdivMultipliesByPowerOrRaises : Prop :=
  ∀ (d a b : FIdx) (s : State) (w : Word), s.inFlight = some w → Encoded (.fdiv d a b) 0x13#8 .r3 ∧
    ErrorCode.divByZero.code = 0x01#8 ∧
    (¬ Config.p ∣ s.natF b → ∃ t, exec (.fdiv d a b) s = .next t ∧
      RetiredF d ((s.natF a * s.natF b ^ (Config.p - 2)) % Config.p) s t) ∧
    (Config.p ∣ s.natF b → ∃ t, exec (.fdiv d a b) s = .next t ∧ Raised .divByZero w s t)

/-- R69: FINV retires for an operand that is not 0 mod p and raises DIV_BY_ZERO for every multiple of p. -/
def Obligations.FinvGivesPowerOrRaises : Prop :=
  ∀ (d a : FIdx) (s : State) (w : Word), s.inFlight = some w → Encoded (.finv d a) 0x14#8 .r2 ∧
    ErrorCode.divByZero.code = 0x01#8 ∧
    (¬ Config.p ∣ s.natF a → ∃ t, exec (.finv d a) s = .next t ∧
      RetiredF d (s.natF a ^ (Config.p - 2) % Config.p) s t) ∧
    (Config.p ∣ s.natF a → ∃ t, exec (.finv d a) s = .next t ∧ Raised .divByZero w s t)

/-- R70: FEXP; the exponent is the whole register, and 0^0 = 1. -/
def Obligations.FexpGivesPowerModP : Prop :=
  ∀ (d a b : FIdx) (s : State), Encoded (.fexp d a b) 0x15#8 .r3 ∧
    ∃ t, exec (.fexp d a b) s = .next t ∧ RetiredF d (s.natF a ^ s.natF b % Config.p) s t

/-- R71: FEXPM; modulus 0 selects p, any other modulus is used as given (modulus 1 gives 0). -/
def Obligations.FexpmGivesPowerModOverride : Prop :=
  ∀ (d a b m : FIdx) (s : State), Encoded (.fexpm d a b m) 0x16#8 .r4 ∧
    (s.natF m = 0 → ∃ t, exec (.fexpm d a b m) s = .next t ∧ RetiredF d (s.natF a ^ s.natF b % Config.p) s t) ∧
    (s.natF m ≠ 0 → ∃ t, exec (.fexpm d a b m) s = .next t ∧ RetiredF d (s.natF a ^ s.natF b % s.natF m) s t)

/-- R72: FRED. -/
def Obligations.FredReducesModP : Prop :=
  ∀ (d a : FIdx) (s : State), Encoded (.fred d a) 0x17#8 .r2 ∧
    ∃ t, exec (.fred d a) s = .next t ∧ RetiredF d (s.natF a % Config.p) s t

/-- R74: for every operand that is not 0 mod p, FINV and then FMUL by the operand gives 1; it rests on p being prime. -/
def Obligations.FinvThenFmulGivesOne : Prop :=
  ∀ (d a e : FIdx) (s : State), d ≠ a → ¬ Config.p ∣ s.natF a →
    ∃ t, execTwo (.finv d a) (.fmul e a d) s = .next t ∧ t.natF e = 1

/-- R68, R74: the quotient FDIV gives, multiplied by the divisor, is the dividend mod p; it rests on p being prime. -/
def Obligations.FdivThenFmulGivesDividend : Prop :=
  ∀ (d a b e : FIdx) (s : State), d ≠ b → ¬ Config.p ∣ s.natF b →
    ∃ t, execTwo (.fdiv d a b) (.fmul e d b) s = .next t ∧ t.natF e = s.natF a % Config.p

/-- R20, R64: a command that changes its F destination to a value of p or more is MOV, LDI, BITS, BREV, WSPLIT, WINS, or FEXPM
with a modulus above p. The P registers are as R22 says they are stored. -/
def Obligations.FieldAndPointResultsAreBelowP : Prop :=
  ∀ (i : Instr) (d : FIdx) (s t : State), s.PointsStored → exec i s = .next t → destOf i = .f d →
    i.op ∉ [Op.mov, Op.ldi, Op.bits, Op.brev, Op.wsplit, Op.wins] →
    (∀ d' a b m, i = .fexpm d' a b m → s.natF m ≤ Config.p) →
    t.readF d ≠ s.readF d → t.natF d < Config.p

/-! ### Curve unit -/

/-- R79: PGEN. -/
def Obligations.PgenLoadsGenerator : Prop :=
  ∀ (d : PIdx) (s : State), Encoded (.pgen d) 0x20#8 .r1 ∧
    ∃ t, exec (.pgen d) s = .next t ∧ RetiredP d ⟨false, 1#256, 2#256⟩ s t ∧ t.ladder = s.ladder

/-- R80: PSET; the reduced pair (0, 0) is INF, and no curve check is made. -/
def Obligations.PsetStoresReducedPair : Prop :=
  ∀ (d : PIdx) (a b : FIdx) (s : State), Encoded (.pset d a b) 0x21#8 .r3 ∧
    ∃ t r, exec (.pset d a b) s = .next t ∧ RetiredP d r s t ∧ t.ladder = s.ladder ∧
      (Config.p ∣ s.natF a ∧ Config.p ∣ s.natF b → r = ⟨true, 0#256, 0#256⟩) ∧
      (¬ (Config.p ∣ s.natF a ∧ Config.p ∣ s.natF b) →
        r.inf = false ∧ r.x.toNat = s.natF a % Config.p ∧ r.y.toNat = s.natF b % Config.p)

/-- R81: PX reads the x coordinate, 0 for INF. -/
def Obligations.PxReadsXCoordinate : Prop :=
  ∀ (d : FIdx) (a : PIdx) (s : State), Encoded (.px d a) 0x22#8 .r2 ∧
    ((s.readP a).inf = true → ∃ t, exec (.px d a) s = .next t ∧ RetiredF d 0 s t) ∧
    ((s.readP a).inf = false → ∃ t, exec (.px d a) s = .next t ∧ RetiredF d (s.readP a).x.toNat s t)

/-- R82: PY reads the y coordinate, 0 for INF. -/
def Obligations.PyReadsYCoordinate : Prop :=
  ∀ (d : FIdx) (a : PIdx) (s : State), Encoded (.py d a) 0x23#8 .r2 ∧
    ((s.readP a).inf = true → ∃ t, exec (.py d a) s = .next t ∧ RetiredF d 0 s t) ∧
    ((s.readP a).inf = false → ∃ t, exec (.py d a) s = .next t ∧ RetiredF d (s.readP a).y.toNat s t)

/-- R83, R76: PDBL. INF and a point with y = 0 give INF; every other stored point gives what its tangent gives, whose slope l
satisfies l * 2y = 3x^2 mod p. That a point with y = 0 is never on the curve is an inference that R83 marks as its own
("[derived: computed by the spec author ...]"). -/
def Obligations.PdblGivesTangentPoint : Prop :=
  ∀ (d a : PIdx) (s : State), Encoded (.pdbl d a) 0x24#8 .r2 ∧
    ∃ t r, exec (.pdbl d a) s = .next t ∧ RetiredP d r s t ∧ t.ladder = s.ladder ∧
      (s.pointP a = .inf → r.toPoint = .inf) ∧
      (∀ x, s.pointP a = .aff x 0 → r.toPoint = .inf ∧ ¬ (s.pointP a).OnCurve) ∧
      (∀ x y, s.pointP a = .aff x y → x < Config.p → 0 < y → y < Config.p → ∃ l x3 y3,
        r.toPoint = .aff x3 y3 ∧ l < Config.p ∧ (l * (2 * y)) % Config.p = (3 * x ^ 2) % Config.p ∧
          SlopeSum l x y x x3 y3)

/-- R84, R77: PADD. INF is neutral, equal points double, points with the same x and different y give INF, and points with
different x give what their chord gives, whose slope l satisfies l * (x2 - x1) = y2 - y1 mod p. -/
def Obligations.PaddGivesChordPoint : Prop :=
  ∀ (d a b : PIdx) (s : State), Encoded (.padd d a b) 0x25#8 .r3 ∧
    ∃ t r, exec (.padd d a b) s = .next t ∧ RetiredP d r s t ∧ t.ladder = s.ladder ∧
      (s.pointP a = .inf → r = (s.pointP b).toPReg) ∧
      (s.pointP b = .inf → r = (s.pointP a).toPReg) ∧
      (s.pointP a = s.pointP b → r = (pdbl (s.pointP a)).toPReg) ∧
      (∀ x y1 y2, s.pointP a = .aff x y1 → s.pointP b = .aff x y2 → y1 ≠ y2 → r.toPoint = .inf) ∧
      (∀ x1 y1 x2 y2, s.pointP a = .aff x1 y1 → s.pointP b = .aff x2 y2 → x1 ≠ x2 →
        x1 < Config.p → y1 < Config.p → x2 < Config.p → y2 < Config.p → ∃ l x3 y3,
          r.toPoint = .aff x3 y3 ∧ l < Config.p ∧ (l * x2 + y1) % Config.p = (l * x1 + y2) % Config.p ∧
            SlopeSum l x1 y1 x2 x3 y3)

/-- R85, R78: PMUL gives what the loop of exactly 256 add-then-double iterations gives, least significant bit first, on the
whole scalar register. That the early return for a zero scalar or INF gives the same value is an inference that R78 marks as
its own ("[derived: from rules R76, R77 and this rule]"). -/
def Obligations.PmulGivesLadderResult : Prop :=
  ∀ (d a : PIdx) (b : FIdx) (s : State), Encoded (.pmul d a b) 0x26#8 .r3 ∧
    ∃ t, exec (.pmul d a b) s = .next t ∧ RetiredP d (ladderFold (s.pointP a) (s.natF b)).1.toPReg s t

/-- R86: the group-law identities REUA requires, which R86 derives from its rules, and the symmetry of addition, which R86
derives for different x; for all point values it rests on p being prime (R74, log entry 18). -/
def Obligations.GroupLawIdentities : Prop :=
  (∀ q : Point, padd q .inf = q ∧ pmul q 1 = q ∧ pmul q 0 = .inf ∧ pdbl q = padd q q) ∧
    pmul generator 2 = pdbl generator ∧ pmul generator 3 = padd (pdbl generator) generator ∧
    (∀ q r : Point, q.Canonical → r.Canonical → padd q r = padd r q)

/-- R78: least significant bit first: an even scalar multiplies the doubled point by its half. -/
def Obligations.EvenScalarMultipliesDoubledPoint : Prop :=
  ∀ (q : Point) (n : Nat), n < 2 ^ 255 → pmul q (2 * n) = pmul (pdbl q) n

/-- R87: when every P register holds a point of the curve, every command but PSET, and PSET of an on-curve pair, leaves only
points of the curve; it rests on p being prime. -/
def Obligations.CommandsKeepPointsOnCurve : Prop :=
  ∀ (i : Instr) (s t : State), (∀ j, (s.pointP j).OnCurve) →
    (∀ d a b, i = .pset d a b → s.natF b ^ 2 % Config.p = (s.natF a ^ 3 + Config.curveB) % Config.p) →
    exec i s = .next t → ∀ j, (t.pointP j).OnCurve

/-! ### Bit-packing unit -/

/-- R89: BITS copies a source below 2^w and raises ENCODING_RANGE on any other; w = 256 never raises. -/
def Obligations.BitsCopiesOrRaises : Prop :=
  ∀ (d a : FIdx) (n : Nat) (s : State) (w : Word), WidthOk n → s.inFlight = some w → Encoded (.bits d a n) 0x30#8 .ri ∧
    ErrorCode.encodingRange.code = 0x02#8 ∧
    (s.natF a < 2 ^ n → ∃ t, exec (.bits d a n) s = .next t ∧ RetiredF d (s.natF a) s t) ∧
    (2 ^ n ≤ s.natF a → ∃ t, exec (.bits d a n) s = .next t ∧ Raised .encodingRange w s t)

/-- R90: BREV reverses the low w bits of a source below 2^w and raises ENCODING_RANGE on any other. -/
def Obligations.BrevReversesBitsOrRaises : Prop :=
  ∀ (d a : FIdx) (n : Nat) (s : State) (w : Word), WidthOk n → s.inFlight = some w → Encoded (.brev d a n) 0x31#8 .ri ∧
    ErrorCode.encodingRange.code = 0x02#8 ∧
    (s.natF a < 2 ^ n → ∃ t r, exec (.brev d a n) s = .next t ∧ RetiredF d r s t ∧ r < 2 ^ n ∧
      ∀ j, j < n → r.testBit j = (s.natF a).testBit (n - 1 - j)) ∧
    (2 ^ n ≤ s.natF a → ∃ t, exec (.brev d a n) s = .next t ∧ Raised .encodingRange w s t)

/-- R90: the sequence BREV gives is the most-significant-first sequence of the source reversed, and BREV twice with the same
width gives the source back. -/
def Obligations.BrevTwiceGivesSource : Prop :=
  ∀ (d e a : FIdx) (n : Nat) (s : State), WidthOk n → s.natF a < 2 ^ n →
    (∃ t, exec (.brev d a n) s = .next t ∧ bitSeq n (t.natF d) = (bitSeq n (s.natF a)).reverse) ∧
    ∃ u, execTwo (.brev d a n) (.brev e d n) s = .next u ∧ u.natF e = s.natF a

/-- R94: BITS at width 256 never raises, and the MOV that stands for pack_bits gives the source back; the sum of the bits of a
sequence is the natural that holds it. -/
def Obligations.PackBitsInvertsIntToBits : Prop :=
  (∀ n, n < 2 ^ 256 → packBits (bitSeq 256 n) = n) ∧
    ∀ (d e a : FIdx) (s : State), ∃ t, execTwo (.bits d a 256) (.mov e d) s = .next t ∧ t.natF e = s.natF a ∧
      SameLatch s t

/-- R91: WSPLIT. -/
def Obligations.WsplitExtractsWord : Prop :=
  ∀ (d a : FIdx) (k : Nat) (s : State), WordIndexOk k → Encoded (.wsplit d a k) 0x32#8 .ri ∧
    ∃ t, exec (.wsplit d a k) s = .next t ∧ RetiredF d (s.natF a / 2 ^ (224 - 32 * k) % 2 ^ 32) s t

/-- R92: WINS puts a source below 2^32 into word k, leaves the other seven words, and raises ENCODING_RANGE on a wider
source. -/
def Obligations.WinsInsertsWordOrRaises : Prop :=
  ∀ (d a : FIdx) (k : Nat) (s : State) (w : Word), WordIndexOk k → s.inFlight = some w → Encoded (.wins d a k) 0x33#8 .ri ∧
    ErrorCode.encodingRange.code = 0x02#8 ∧
    (s.natF a < 2 ^ 32 → ∃ t v, exec (.wins d a k) s = .next t ∧ RetiredF d v s t ∧
      v / 2 ^ (224 - 32 * k) % 2 ^ 32 = s.natF a ∧
      ∀ j, j ≤ 7 → j ≠ k → v / 2 ^ (224 - 32 * j) % 2 ^ 32 = s.natF d / 2 ^ (224 - 32 * j) % 2 ^ 32) ∧
    (2 ^ 32 ≤ s.natF a → ∃ t, exec (.wins d a k) s = .next t ∧ Raised .encodingRange w s t)

/-- R93: FPACK gives the upper half for h = 0 and the lower half for h = 1, reduced mod p. That the reduction changes neither is
an inference that R93 marks as its own ("[derived: 00_scope.md rule R6]"). -/
def Obligations.FpackGivesHalf : Prop :=
  ∀ (d a : FIdx) (h : Nat) (s : State), HalfOk h → Encoded (.fpack d a h) 0x34#8 .ri ∧
    ∃ t, exec (.fpack d a h) s = .next t ∧ RetiredF d (s.natF a / 2 ^ (128 * (1 - h)) % 2 ^ 128 % Config.p) s t ∧
      t.natF d = s.natF a / 2 ^ (128 * (1 - h)) % 2 ^ 128

/-- R95: WSPLIT at 4 to 7 of a packed half gives the four words that were packed. -/
def Obligations.WsplitInvertsFpack : Prop :=
  ∀ (d e a : FIdx) (h j : Nat) (s : State), HalfOk h → j < 4 →
    ∃ t, execTwo (.fpack d a h) (.wsplit e d (4 + j)) s = .next t ∧ t.readF e = (wordOf (s.readF a) (4 * h + j)).setWidth 256

/-- R42: byte j of the canonical big-endian encoding is byte j mod 4 of word j / 4. -/
def Obligations.BytesLieBigEndianInWords : Prop :=
  ∀ (v : Reg) (j : Nat), j < 32 → byteOf v j = (wordOf v (j / 4)).extractLsb' (24 - 8 * (j % 4)) 8

/-! ### Moves and pseudo-instructions -/

/-- R96: NOP; every other word with its opcode is illegal. -/
def Obligations.NopOnlyAdvancesCmdcount : Prop :=
  ∀ s : State, Encoded .nop 0x00#8 .n ∧ encode .nop = 0#32 ∧
    (∀ w : Word, opcField w = 0x00#8 → w ≠ 0#32 → ∃ e, decode w = .error e) ∧
    ∃ t, exec .nop s = .next t ∧ Retired s t ∧ SameRegs s t

/-- R97: MOV. -/
def Obligations.MovCopiesWholeRegister : Prop :=
  ∀ (d a : FIdx) (s : State), Encoded (.mov d a) 0x01#8 .r2 ∧
    ∃ t, exec (.mov d a) s = .next t ∧ RetiredF d (s.natF a) s t

/-- R98: LDI. -/
def Obligations.LdiLoadsZeroExtendedImmediate : Prop :=
  ∀ (d : FIdx) (imm : BitVec 16) (s : State), Encoded (.ldi d imm) 0x02#8 .i16 ∧
    ∃ t, exec (.ldi d imm) s = .next t ∧ RetiredF d imm.toNat s t

/-- R62: FNEG leaves the negative of a register and 0 in its scratch register; PCOPY copies every stored point, on the curve or
not, and leaves 1 in its scratch register. -/
def Obligations.PseudoFnegAndPcopyMeanWhatTheyName : Prop :=
  (∀ (d a t : FIdx) (s : State), (Pseudo.fneg d a t).allowed = true → ∃ i j u, (Pseudo.fneg d a t).expand = [i, j] ∧
    execTwo i j s = .next u ∧ (u.natF d + s.natF a) % Config.p = 0 ∧ u.natF d < Config.p ∧ (t ≠ d → u.natF t = 0)) ∧
  (∀ (d a : PIdx) (t : FIdx) (s : State), (s.readP a).Stored → ∃ i j u, (Pseudo.pcopy d a t).expand = [i, j] ∧
    execTwo i j s = .next u ∧ u.readP d = s.readP a ∧ u.natF t = 1)

/-! ### Errors, resets and the port -/

/-- R29, R105, R107: a host write to CMD is accepted when BUSY = 0 and ERR = 0, dropped without any effect when only ERR = 1,
and while BUSY = 1 never accepted but recorded as CMD_OVERRUN unless an error is latched; the command in flight stays. -/
def Obligations.CmdWriteAcceptedDroppedOrOverrun : Prop :=
  ∀ (s : State) (w : Word) (rest : List HostMove), s.inbox = .write .word 0x00C#12 w :: rest → s.dueCommand = none →
    ErrorCode.cmdOverrun.code = 0x12#8 ∧
    ∃ t, step s = .next t ∧ t.inbox = rest ∧ t.history = s.history ++ [.write .word 0x00C#12 w] ∧ SameRegs s t ∧
      t.cmdCount = s.cmdCount ∧
      (s.busy = false → s.err = none → t.inFlight = some w ∧ SameLatch s t) ∧
      (s.busy = false → s.err ≠ none → t.inFlight = none ∧ SameLatch s t) ∧
      (s.busy = true → t.inFlight = s.inFlight ∧ Latched .cmdOverrun w s t)

/-- R39, R108: a host write to word k of F register i replaces that word and nothing else; while BUSY = 1 it is dropped and
recorded as HOST_WRITE_BUSY unless an error is latched. -/
def Obligations.FWindowWriteReplacesOneWord : Prop :=
  ∀ (s : State) (i : FIdx) (k : Fin 8) (v : Word) (off : Offset) (rest : List HostMove),
    off.toNat = 0x100 + 0x20 * i.val + 4 * k.val → s.inbox = .write .word off v :: rest → s.dueCommand = none →
    ErrorCode.hostWriteBusy.code = 0x13#8 ∧
    ∃ t, step s = .next t ∧ t.inbox = rest ∧ t.history = s.history ++ [.write .word off v] ∧ t.cmdCount = s.cmdCount ∧
      t.inFlight = s.inFlight ∧
      (s.busy = false → OnlyF i s t ∧ SameLatch s t ∧ wordOf (t.readF i) k.val = v ∧
        ∀ j : Fin 8, j ≠ k → wordOf (t.readF i) j.val = wordOf (s.readF i) j.val) ∧
      (s.busy = true → SameRegs s t ∧ Latched .hostWriteBusy 0#32 s t)

/-- R37, R38, R44, R27: a write to a read-only or reserved offset, a misaligned, a narrower or a wider write has no effect, and
none has a write to CTRL with neither SRST nor ERRCLR set, whatever its reserved bits. -/
def Obligations.OtherWritesAreIgnored : Prop :=
  ∀ (s : State) (width : Width) (off : Offset) (v : Word),
    width ≠ .word ∨ off.toNat % 4 ≠ 0 ∨
      (off ≠ 0x004#12 ∧ off ≠ 0x00C#12 ∧ ¬ (0x100 ≤ off.toNat ∧ off.toNat < 0x300)) ∨
      (off = 0x004#12 ∧ v.getLsbD 0 = false ∧ v.getLsbD 1 = false) →
    s.hostWrite width off v = s

/-- R44, R38: a host read changes nothing in the block, whatever it reads and whether BUSY or not; an access that is not 32 bits
wide at a multiple of 4, and a reserved offset, read 0. -/
def Obligations.ReadsHaveNoSideEffect : Prop :=
  ∀ (s : State) (width : Width) (off : Offset) (rest : List HostMove),
    s.inbox = .read width off :: rest → s.dueCommand = none → ∃ t v, step s = .next t ∧ t.inbox = rest ∧
      Replied width off v s t ∧
      (width ≠ .word ∨ off.toNat % 4 ≠ 0 → v = 0#32) ∧
      ((0x020 ≤ off.toNat ∧ off.toNat < 0x100) ∨ (0x300 ≤ off.toNat ∧ off.toNat < 0x400) ∨ 0x600 ≤ off.toNat → v = 0#32)

/-- R26-R33: what a host read of each control register finds; PINF only while BUSY = 0. -/
def Obligations.ControlReadsReturnRegisters : Prop :=
  ∀ s : State,
    Replied .word 0x000#12 0x46464543#32 s (s.hostRead .word 0x000#12) ∧
    Replied .word 0x004#12 0#32 s (s.hostRead .word 0x004#12) ∧
    Replied .word 0x008#12 s.statusWord s (s.hostRead .word 0x008#12) ∧
    Replied .word 0x00C#12 0#32 s (s.hostRead .word 0x00C#12) ∧
    Replied .word 0x010#12 s.cmdCount s (s.hostRead .word 0x010#12) ∧
    Replied .word 0x014#12 s.errPc s (s.hostRead .word 0x014#12) ∧
    Replied .word 0x018#12 s.errCmd s (s.hostRead .word 0x018#12) ∧
    (s.busy = false → Replied .word 0x01C#12 s.pinfWord s (s.hostRead .word 0x01C#12) ∧
      (∀ i : PIdx, s.pinfWord.getLsbD i.val = (s.readP i).inf) ∧ ∀ j, 8 ≤ j → s.pinfWord.getLsbD j = false)

/-- R28, R102: the fields of STATUS, with the code of each error; every reserved bit reads 0. -/
def Obligations.StatusWordFields : Prop :=
  ∀ s : State, s.statusWord.getLsbD 0 = s.inFlight.isSome ∧ s.statusWord.getLsbD 1 = s.err.isSome ∧
    (s.err = none → s.statusWord.extractLsb' 8 8 = 0x00#8) ∧
    (s.err = some .divByZero → s.statusWord.extractLsb' 8 8 = 0x01#8) ∧
    (s.err = some .encodingRange → s.statusWord.extractLsb' 8 8 = 0x02#8) ∧
    (s.err = some .degenerateSample → s.statusWord.extractLsb' 8 8 = 0x03#8) ∧
    (s.err = some .illegalCommand → s.statusWord.extractLsb' 8 8 = 0x10#8) ∧
    (s.err = some .cmdOverrun → s.statusWord.extractLsb' 8 8 = 0x12#8) ∧
    (s.err = some .hostWriteBusy → s.statusWord.extractLsb' 8 8 = 0x13#8) ∧
    (∀ c, s.err = some c → s.statusWord.extractLsb' 8 8 = c.code) ∧
    ∀ j, 2 ≤ j ∧ j < 8 ∨ 16 ≤ j → s.statusWord.getLsbD j = false

/-- R39, R40: while BUSY = 0 a host read of the F or P window finds the word of the register that stands there, most
significant word first. -/
def Obligations.WindowReadsReturnRegisterWords : Prop :=
  ∀ (s : State) (k : Fin 8) (off : Offset), s.busy = false →
    (∀ i : FIdx, off.toNat = 0x100 + 0x20 * i.val + 4 * k.val →
      Replied .word off ((s.readF i).extractLsb' (224 - 32 * k.val) 32) s (s.hostRead .word off)) ∧
    (∀ i : PIdx, off.toNat = 0x400 + 0x40 * i.val + 4 * k.val →
      Replied .word off ((s.readP i).x.extractLsb' (224 - 32 * k.val) 32) s (s.hostRead .word off)) ∧
    (∀ i : PIdx, off.toNat = 0x400 + 0x40 * i.val + 0x20 + 4 * k.val →
      Replied .word off ((s.readP i).y.extractLsb' (224 - 32 * k.val) 32) s (s.hostRead .word off))

/-- R106, R27: CTRL.ERRCLR without SRST clears the latch, and changes nothing else; without an error latched it has no effect. -/
def Obligations.ErrclrClearsLatch : Prop :=
  ∀ (s : State) (v : Word), v.getLsbD 0 = false → v.getLsbD 1 = true →
    (s.err ≠ none → s.hostWrite .word 0x004#12 v = { s with err := none, errPc := 0#32, errCmd := 0#32 }) ∧
    (s.err = none → s.hostWrite .word 0x004#12 v = s)

/-- R117, R27: CTRL.SRST, with ERRCLR or without, resets the control state. It changes no F and no P register but the
destination of a command it abandons, and with nothing in flight no register at all. -/
def Obligations.SoftResetKeepsRegisters : Prop :=
  ∀ (s t : State) (v : Word), v.getLsbD 0 = true → s.hostWrite .word 0x004#12 v = t →
    t.busy = false ∧ t.err = none ∧ t.errPc = 0#32 ∧ t.errCmd = 0#32 ∧ t.cmdCount = 0#32 ∧
    (s.inFlight = none → SameRegs s t) ∧
    (∀ w i, s.inFlight = some w → decode w = .ok i → OnlyDest (destOf i) s t) ∧
    (∀ w e, s.inFlight = some w → decode w = .error e → SameRegs s t)

/-- R118: after either reset the first word written to CMD is accepted as command index 0. The hard reset leaves the control
state of R116 whatever the state before. -/
def Obligations.FirstCommandAfterResetHasIndexZero : Prop :=
  (∀ s : State, s.hardReset.statusWord = 0#32 ∧ s.hardReset.cmdCount = 0#32 ∧ s.hardReset.errPc = 0#32 ∧
    s.hardReset.errCmd = 0#32 ∧ s.hardReset.inFlight = none) ∧
  ∀ (s t : State) (w : Word), t = s.hardReset ∨ t = s.softReset →
    (t.hostWrite .word 0x00C#12 w).inFlight = some w ∧ (t.hostWrite .word 0x00C#12 w).cmdCount = 0#32

/-- R25: only CTRL.ERRCLR or a reset clears ERR. -/
def Obligations.ErrClearedOnlyByErrclrOrReset : Prop :=
  ∀ s t : State, step s = .next t → s.err ≠ none → t.err = none →
    ∃ m rest, s.inbox = m :: rest ∧ (m = .hardReset ∨
      ∃ v : Word, m = .write .word 0x004#12 v ∧ (v.getLsbD 0 = true ∨ v.getLsbD 1 = true))

/-- R24: in one step CMDCOUNT stays, advances by one modulo 2^32 as a command in flight ends, or is set to 0 by a reset. -/
def Obligations.CmdcountCountsRetirements : Prop :=
  ∀ s t : State, step s = .next t →
    t.cmdCount = s.cmdCount ∨ (t.cmdCount = s.cmdCount + 1#32 ∧ s.busy = true ∧ t.busy = false) ∨
      (t.cmdCount = 0#32 ∧ ∃ m rest, s.inbox = m :: rest ∧ (m = .hardReset ∨
        ∃ v : Word, m = .write .word 0x004#12 v ∧ v.getLsbD 0 = true))

/-- R22: a command other than PGEN, PSET, PDBL, PADD and PMUL writes no P register. -/
def Obligations.OnlyPointCommandsWritePRegisters : Prop :=
  ∀ (i : Instr) (s t : State), exec i s = .next t → i.op ∉ [Op.pgen, Op.pset, Op.pdbl, Op.padd, Op.pmul] →
    (∀ j, t.readP j = s.readP j) ∧ t.ladder = s.ladder

/-! ### Invariants -/

/-- R22, R28, R31, R32, R102: every step, of the sequencer or of the host, keeps the storage invariant of the points, ERRPC and
ERRCMD at 0 without an error, the reserved error code unlatched, and BUSY with ERR only under a host error. -/
def Obligations.EveryStepKeepsInv : Prop := ∀ s t : State, s.Inv → step s = .next t → t.Inv

/-- The state after reset meets the invariant, with no host move to come and BUSY = 0; its F and P registers, its ladder and its
host hold the values that log entries 1, 2, 3 and 4 name (the model's choice). -/
def Obligations.ResetMeetsInv : Prop := State.reset.Inv ∧ State.reset.inbox = [] ∧ State.reset.busy = false

/-- R46, R113: in every state a step answers a next state: no access faults and no command is refused. That a read of a register
to which nothing has given a value is no fault, where R21, R23 and R109 advise a model to fault, rests on log entries 1, 2, 7
and 8 (DESIGN CHOICE: every register holds a value). -/
def Obligations.EveryStepAnswersNextState : Prop := ∀ s : State, ∃ t, step s = .next t

/-- R19: every step keeps that a run is over, and that BUSY = 0 once it is; and after it a host read of an observed register adds
its offset and its value to the observation. That the STATUS read which ends the run is not itself part of the observation is an
inference (log entry 20). -/
def Obligations.RunOverStaysIdleAndReadsAreObserved : Prop :=
  ∀ s t : State, step s = .next t →
    (s.RunOver → t.RunOver) ∧
    ((s.RunOver → s.busy = false) → t.RunOver → t.busy = false) ∧
    ∀ off rest, s.RunOver → s.busy = false → s.inbox = .read .word off :: rest → off.toNat % 4 = 0 →
      (portReg off).observed = true →
      ∃ v, Replied .word off v s t ∧ t.observation = s.observation ++ [(off, v)]

end
end

