-- ==== Sys2Proof/Laws/Bitpack.lean ====
section
/-! SUPPORT. The bit-packing operations bit by bit: bit reversal, the words of a register, replacing one word. -/

namespace Sys2Proof.Laws

open Sys2Proof.Machine

theorem reverseBits_lt : ∀ w n : Nat, reverseBits w n < 2 ^ w
  | 0, _ => by simp [reverseBits]
  | w + 1, n => by
    have h := reverseBits_lt w (n / 2)
    rw [reverseBits, pow_succ]
    rcases Nat.mod_two_eq_zero_or_one n with h2 | h2 <;> rw [h2] <;> omega

/-- Bit j of the reversal is bit w-1-j of the source (R90). -/
theorem reverseBits_testBit : ∀ w n j : Nat, (reverseBits w n).testBit j = (decide (j < w) && n.testBit (w - 1 - j))
  | 0, _, _ => by simp [reverseBits]
  | w + 1, n, j => by
    rw [reverseBits, mul_comm, Nat.testBit_two_pow_mul_add _ (reverseBits_lt w _)]
    split
    · rename_i h
      rw [reverseBits_testBit w, Nat.testBit_div_two, show w - 1 - j + 1 = w + 1 - 1 - j by omega]
      simp [h, show j < w + 1 by omega]
    · rename_i h
      rcases Nat.eq_or_lt_of_le (Nat.le_of_not_lt h) with h2 | h2
      · subst h2; simp [Nat.testBit_zero]
      · have h4 : 2 ^ 1 ≤ 2 ^ (j - w) := Nat.pow_le_pow_right (by omega) (by omega)
        have h3 : (n % 2).testBit (j - w) = false := Nat.testBit_lt_two_pow (by omega)
        simp [h3, show ¬ j < w + 1 by omega]

/-- Word k as a quotient and a remainder (R41). -/
theorem wordOf_toNat (v : Reg) (k : Nat) : (wordOf v k).toNat = v.toNat / 2 ^ (224 - 32 * k) % 2 ^ 32 := by
  rw [wordOf, BitVec.extractLsb'_toNat, Nat.shiftRight_eq_div_pow]

/-- Bit i of the register with word k replaced. -/
theorem getLsbD_replaceWord (v : Reg) (k : Nat) (u : Word) {i : Nat} (h : i < 256) :
    (replaceWord v k u).getLsbD i =
      if 224 - 32 * k ≤ i ∧ i < 224 - 32 * k + 32 then u.getLsbD (i - (224 - 32 * k)) else v.getLsbD i := by
  have hm : ∀ j, (0xFFFFFFFF#256).getLsbD j = decide (j < 32) := by
    intro j
    rw [BitVec.getLsbD_ofNat, show (0xFFFFFFFF : Nat) = 2 ^ 32 - 1 from rfl, Nat.testBit_two_pow_sub_one]
    by_cases hj : j < 32
    · simp [hj, show j < 256 by omega]
    · simp [hj]
  simp only [replaceWord, BitVec.getLsbD_or, BitVec.getLsbD_and, BitVec.getLsbD_not, BitVec.getLsbD_shiftLeft,
    BitVec.getLsbD_setWidth, hm]
  split
  · rename_i hr
    simp [h, show ¬ i < 224 - 32 * k by omega, show i - (224 - 32 * k) < 32 by omega, show i - (224 - 32 * k) < 256 by omega]
  · rename_i hr
    rcases Nat.lt_or_ge i (224 - 32 * k) with h1 | h1
    · simp [h, h1]
    · have h2 : 32 ≤ i - (224 - 32 * k) := by omega
      simp [h, Nat.not_lt.mpr h2, BitVec.getLsbD_of_ge u _ h2]

/-- The word written is the word read. -/
theorem wordOf_replaceWord_self (v : Reg) {k : Nat} (hk : k ≤ 7) (u : Word) : wordOf (replaceWord v k u) k = u := by
  apply BitVec.eq_of_getLsbD_eq; intro i hi
  rw [wordOf, BitVec.getLsbD_extractLsb', getLsbD_replaceWord _ _ _ (by omega), if_pos (by omega)]
  simp [hi]

/-- The other words stay. -/
theorem wordOf_replaceWord_of_ne (v : Reg) {k j : Nat} (hk : k ≤ 7) (hj : j ≤ 7) (h : j ≠ k) (u : Word) :
    wordOf (replaceWord v k u) j = wordOf v j := by
  apply BitVec.eq_of_getLsbD_eq; intro i hi
  rw [wordOf, wordOf, BitVec.getLsbD_extractLsb', BitVec.getLsbD_extractLsb', getLsbD_replaceWord _ _ _ (by omega),
    if_neg (by omega)]

end Sys2Proof.Laws
end

