-- ==== Sys2Proof/Laws/Curve.lean ====
section
/-! SUPPORT. The ladder (41_curve R78): its run as a fold, iterations past the scalar's last bit, and that the early return
changes no result. -/

namespace Sys2Proof.Laws

open Sys2Proof.Machine

/-- `k` iterations as a fold over the indices from where the run begins. -/
theorem ladderRun_eq_fold (n : Nat) : ∀ (k i : Nat) (r a : Point), ladderRun n k ⟨r, a, i⟩ =
    (let q := (List.range' i k).foldl (fun acc i => (if n.testBit i then padd acc.1 acc.2 else acc.1, pdbl acc.2)) (r, a)
     ⟨q.1, q.2, i + k⟩)
  | 0, i, r, a => by simp [ladderRun]
  | k + 1, i, r, a => by
    rw [ladderRun, ladderStep, ladderRun_eq_fold n k]
    simp [List.range'_succ]
    omega

/-- Iterations one after the other. -/
theorem ladderRun_add (n : Nat) : ∀ (k j : Nat) (l : LadderVals), ladderRun n (k + j) l = ladderRun n j (ladderRun n k l)
  | 0, j, l => by simp [ladderRun]
  | k + 1, j, l => by rw [Nat.succ_add, ladderRun, ladderRun_add n k j]; rfl

/-- The result stays once no bit is left. -/
theorem ladderRun_result_of_no_bits (n : Nat) : ∀ (k : Nat) (l : LadderVals), (∀ i, l.index ≤ i → n.testBit i = false) →
    (ladderRun n k l).result = l.result
  | 0, _, _ => rfl
  | k + 1, l, h => by
    rw [ladderRun, ladderRun_result_of_no_bits n k (ladderStep n l) (fun i hi => h i (by simp [ladderStep] at hi; omega))]
    simp [ladderStep, h l.index le_rfl]

/-- From INF the result stays INF. -/
theorem ladderRun_inf (n : Nat) : ∀ k i : Nat, (ladderRun n k ⟨.inf, .inf, i⟩).result = .inf
  | 0, _ => rfl
  | k + 1, i => by
    rw [ladderRun, ladderStep]
    simp only [padd, pdbl, ite_self]
    exact ladderRun_inf n k _

/-- The early return gives what the 256 iterations give. -/
theorem pmul_eq_ladder (q : Point) (n : Nat) : pmul q n = (ladderOf q n).result := by
  unfold pmul
  split
  · rename_i h
    simp only [ladderSkipped, Bool.or_eq_true, beq_iff_eq] at h
    rcases h with rfl | rfl
    · rw [ladderOf, ladderRun_result_of_no_bits]
      simp
    · rw [ladderOf, ladderRun_inf]
  · rfl

end Sys2Proof.Laws
end

