-- ==== Sys2Proof/Laws/Decode.lean ====
section
/-! SUPPORT. The fields of a word: each field of the word with given fields is that field, and a word is made of its fields. -/

namespace Sys2Proof.Laws

variable (opc : BitVec 8) (d a b m : BitVec 4) (imm : BitVec 8)

theorem getLsbD_ofFields (i : Nat) : (ofFields opc d a b m imm).getLsbD i =
    if i < 8 then imm.getLsbD i else if i < 12 then m.getLsbD (i - 8) else if i < 16 then b.getLsbD (i - 12)
    else if i < 20 then a.getLsbD (i - 16) else if i < 24 then d.getLsbD (i - 20) else opc.getLsbD (i - 24) := by
  have h : (ofFields opc d a b m imm).getLsbD i = (opc ++ d ++ a ++ b ++ m ++ imm).getLsbD i := rfl
  rw [h]
  simp only [BitVec.getLsbD_append]
  repeat' split
  all_goals first | rfl | omega

@[simp] theorem opcField_ofFields : opcField (ofFields opc d a b m imm) = opc := by
  apply BitVec.eq_of_getLsbD_eq; intro i hi
  rw [opcField, BitVec.getLsbD_extractLsb', getLsbD_ofFields]
  grind

@[simp] theorem dField_ofFields : dField (ofFields opc d a b m imm) = d := by
  apply BitVec.eq_of_getLsbD_eq; intro i hi
  rw [dField, BitVec.getLsbD_extractLsb', getLsbD_ofFields]
  grind

@[simp] theorem aField_ofFields : aField (ofFields opc d a b m imm) = a := by
  apply BitVec.eq_of_getLsbD_eq; intro i hi
  rw [aField, BitVec.getLsbD_extractLsb', getLsbD_ofFields]
  grind

@[simp] theorem bField_ofFields : bField (ofFields opc d a b m imm) = b := by
  apply BitVec.eq_of_getLsbD_eq; intro i hi
  rw [bField, BitVec.getLsbD_extractLsb', getLsbD_ofFields]
  grind

@[simp] theorem mField_ofFields : mField (ofFields opc d a b m imm) = m := by
  apply BitVec.eq_of_getLsbD_eq; intro i hi
  rw [mField, BitVec.getLsbD_extractLsb', getLsbD_ofFields]
  grind

@[simp] theorem imm8Field_ofFields : imm8Field (ofFields opc d a b m imm) = imm := by
  apply BitVec.eq_of_getLsbD_eq; intro i hi
  rw [imm8Field, BitVec.getLsbD_extractLsb', getLsbD_ofFields]
  grind

/-- The 16-bit immediate overlaps B, M and IMM8 (R54). -/
theorem imm16Field_ofFields : imm16Field (ofFields opc d a b m imm) = b ++ m ++ imm := by
  apply BitVec.eq_of_getLsbD_eq; intro i hi
  rw [imm16Field, BitVec.getLsbD_extractLsb', getLsbD_ofFields, BitVec.getLsbD_append, BitVec.getLsbD_append]
  grind

/-- A word is made of its fields. -/
theorem ofFields_fields (w : Word) :
    ofFields (opcField w) (dField w) (aField w) (bField w) (mField w) (imm8Field w) = w := by
  apply BitVec.eq_of_getLsbD_eq; intro i hi
  simp only [getLsbD_ofFields, opcField, dField, aField, bField, mField, imm8Field, BitVec.getLsbD_extractLsb']
  grind

@[simp] theorem ofOpc_opc (o : Op) : Op.ofOpc o.opc = some o := by cases o <;> decide

/-- A row is found by its opcode only. -/
theorem opc_of_ofOpc {c : BitVec 8} {o : Op} (h : Op.ofOpc c = some o) : o.opc = c := by
  simpa using List.find?_some h

@[simp] theorem fReg_fField (r : FIdx) : fReg (fField r) = r := by
  revert r; decide

@[simp] theorem pReg_pField (r : PIdx) : pReg (pField r) = some r := by
  revert r; decide

@[simp] theorem fField_fReg (x : BitVec 4) : fField (fReg x) = x := by
  revert x; decide

/-! ### The fixed bits of a word -/

theorem and_ofFields (opc' : BitVec 8) (d' a' b' m' : BitVec 4) (imm' : BitVec 8) :
    ofFields opc d a b m imm &&& ofFields opc' d' a' b' m' imm' =
      ofFields (opc &&& opc') (d &&& d') (a &&& a') (b &&& b') (m &&& m') (imm &&& imm') := by
  apply BitVec.eq_of_getLsbD_eq; intro i hi
  simp only [getLsbD_ofFields, BitVec.getLsbD_and]
  grind

/-- The fields of a row's mask and match (R58). -/
theorem mask_match_fields (o : Op) : opcField o.mask = 0xFF#8 ∧ ofFields o.opc 0#4 0#4 0#4 0#4 0#8 = o.pattern := by
  cases o <;> decide

/-- A word with the row's opcode and zeros under the rest of its mask has the row's match under its mask. -/
theorem fixed_of_fields (o : Op) (hd : d &&& dField o.mask = 0#4) (ha : a &&& aField o.mask = 0#4)
    (hb : b &&& bField o.mask = 0#4) (hm : m &&& mField o.mask = 0#4) (hi : imm &&& imm8Field o.mask = 0#8) :
    ofFields o.opc d a b m imm &&& o.mask = o.pattern := by
  obtain ⟨h1, h2⟩ := mask_match_fields o
  have h3 : o.opc &&& 0xFF#8 = o.opc := BitVec.and_allOnes
  conv_lhs => rw [← ofFields_fields o.mask]
  rw [and_ofFields, h1, hd, ha, hb, hm, hi, h3, h2]

/-- The word of a command has the fixed bits of its row. -/
theorem encode_fixed {i : Instr} (h : i.WellFormed) : encode i &&& i.op.mask = i.op.pattern := by
  have z4 : ∀ x : BitVec 4, x &&& 0#4 = 0#4 := by decide
  have z8 : ∀ x : BitVec 8, x &&& 0#8 = 0#8 := by decide
  have p4 : ∀ r : PIdx, pField r &&& 8#4 = 0#4 := by decide
  cases i
  case wsplit d a k | wins d a k =>
    have hk : k ≤ 7 := by simpa [Instr.WellFormed, Instr.wellFormed] using h
    exact fixed_of_fields _ _ _ _ _ _ (z4 _) (z4 _) (by decide) (by decide) (by interval_cases k <;> decide)
  case fpack d a k =>
    have hk : k ≤ 1 := by simpa [Instr.WellFormed, Instr.wellFormed] using h
    exact fixed_of_fields _ _ _ _ _ _ (z4 _) (z4 _) (by decide) (by decide) (by interval_cases k <;> decide)
  case nop => decide
  all_goals
    refine fixed_of_fields _ _ _ _ _ _ ?_ ?_ ?_ ?_ ?_ <;>
      first | exact z4 _ | exact z8 _ | exact p4 _ | decide

end Sys2Proof.Laws
end

