-- ==== Sys2Proof/Laws/Field.lean ====
section
/-! SUPPORT. The field primitives: exponentiation by squaring is the power, results are below the modulus, and each primitive
as an equation over the integers modulo p. -/

namespace Sys2Proof.Laws

open Sys2Proof.Machine

theorem p_pos : 0 < Config.p := by decide

theorem p_lt_256 : Config.p < 2 ^ 256 := by decide

/-- A number below 2^256 is what the register it is written to holds. -/
theorem toNat_ofNat_of_lt {v : Nat} (h : v < 2 ^ 256) : (BitVec.ofNat 256 v).toNat = v := by
  rw [BitVec.toNat_ofNat, Nat.mod_eq_of_lt h]

/-- The same for a number below p. -/
theorem toNat_ofNat_of_lt_p {v : Nat} (h : v < Config.p) : (BitVec.ofNat 256 v).toNat = v :=
  toNat_ofNat_of_lt (lt_trans h p_lt_256)

/-- `powMod` computes the power, whatever the modulus, for every exponent its fuel covers. -/
theorem powMod_eq (m : Nat) : ∀ (fuel a e : Nat), e < 2 ^ fuel → powMod m fuel a e = a ^ e % m
  | 0, a, e, h => by
    have : e = 0 := by simpa using h
    simp [powMod, this]
  | fuel + 1, a, e, h => by
    unfold powMod
    by_cases he : e = 0
    · simp [he]
    · have hhalf : e / 2 < 2 ^ fuel := by rw [pow_succ] at h; omega
      have ih := powMod_eq m fuel (a * a % m) (e / 2) hhalf
      have hsq : (a * a % m) ^ (e / 2) % m = a ^ (2 * (e / 2)) % m := by
        rw [← Nat.pow_mod, ← pow_two, ← pow_mul]
      rw [if_neg he, ih, hsq]
      rcases Nat.mod_two_eq_zero_or_one e with h0 | h1
      · have : 2 * (e / 2) = e := by omega
        simp [h0, this]
      · have : 2 * (e / 2) + 1 = e := by omega
        simp only [h1, if_true]
        rw [Nat.mul_mod, Nat.mod_mod, ← Nat.mul_mod, ← pow_succ', this]

theorem fpow_eq (a e : Nat) (h : e < 2 ^ 256) : fpow a e = a ^ e % Config.p := powMod_eq _ _ _ _ h

theorem finv_eq (a : Nat) : finv a = a ^ (Config.p - 2) % Config.p := fpow_eq a _ (by decide)

theorem powMod_lt {m : Nat} (hm : 0 < m) : ∀ fuel a e, powMod m fuel a e < m
  | 0, _, _ => Nat.mod_lt _ hm
  | fuel + 1, a, e => by
    unfold powMod
    split
    · exact Nat.mod_lt _ hm
    · have ih := powMod_lt hm fuel (a * a % m) (e / 2)
      simp only
      split
      · exact Nat.mod_lt _ hm
      · exact ih

theorem red_lt (a : Nat) : red a < Config.p := Nat.mod_lt _ p_pos
theorem fadd_lt (a b : Nat) : fadd a b < Config.p := Nat.mod_lt _ p_pos
theorem fmul_lt (a b : Nat) : fmul a b < Config.p := Nat.mod_lt _ p_pos
theorem fpow_lt (a e : Nat) : fpow a e < Config.p := powMod_lt p_pos _ _ _
theorem fdiv_lt (a b : Nat) : fdiv a b < Config.p := fmul_lt _ _

/-- `fsub` is the integer difference modulo p. -/
theorem fsub_cast (a b : Nat) : (fsub a b : Int) = ((a : Int) - b) % Config.p :=
  Int.toNat_of_nonneg (Int.emod_nonneg _ (by decide))

theorem fsub_lt (a b : Nat) : fsub a b < Config.p := by
  have h := Int.emod_lt_of_pos ((a : Int) - b) (show (0 : Int) < Config.p by decide)
  rw [← fsub_cast] at h
  exact_mod_cast h

theorem red_of_lt {a : Nat} (h : a < Config.p) : red a = a := Nat.mod_eq_of_lt h

@[simp] theorem red_red (a : Nat) : red (red a) = red a := Nat.mod_mod _ _

/-! ### In the ring of integers modulo p -/

theorem red_zmod (a : Nat) : ((red a : Nat) : ZMod Config.p) = a := by simp [red]

theorem fadd_zmod (a b : Nat) : ((fadd a b : Nat) : ZMod Config.p) = a + b := by simp [fadd]

theorem fmul_zmod (a b : Nat) : ((fmul a b : Nat) : ZMod Config.p) = a * b := by simp [fmul]

theorem fsub_zmod (a b : Nat) : ((fsub a b : Nat) : ZMod Config.p) = a - b := by
  have h : (((fsub a b : Nat) : Int) : ZMod Config.p) = ((((a : Int) - b) % Config.p : Int) : ZMod Config.p) := by
    rw [fsub_cast]
  rw [ZMod.intCast_mod] at h
  exact_mod_cast h

theorem finv_zmod (a : Nat) : ((finv a : Nat) : ZMod Config.p) = (a : ZMod Config.p) ^ (Config.p - 2) := by
  rw [finv_eq]; simp

theorem fdiv_zmod (a b : Nat) : ((fdiv a b : Nat) : ZMod Config.p) = a * (b : ZMod Config.p) ^ (Config.p - 2) := by
  rw [fdiv, fmul_zmod, finv_zmod]

/-- Two naturals below p are equal when they are equal modulo p. -/
theorem eq_of_zmod {a b : Nat} (ha : a < Config.p) (hb : b < Config.p) (h : (a : ZMod Config.p) = b) : a = b := by
  have := (ZMod.natCast_eq_natCast_iff' a b Config.p).mp h
  rwa [Nat.mod_eq_of_lt ha, Nat.mod_eq_of_lt hb] at this

end Sys2Proof.Laws
end

