-- ==== Sys2Proof/Laws/State.lean ====
section
/-! SUPPORT. One lemma per field per update of the state, so that no later proof unfolds a record update, and what reading a
register after writing one gives. -/

namespace Sys2Proof.Machine.State

/-! ### writeF -/

@[simp] theorem writeF_f (s : State) (i : FIdx) (v : Reg) : (s.writeF i v).f = s.f.set i.val v i.isLt := rfl
@[simp] theorem writeF_p (s : State) (i : FIdx) (v : Reg) : (s.writeF i v).p = s.p := rfl
@[simp] theorem writeF_cmdCount (s : State) (i : FIdx) (v : Reg) : (s.writeF i v).cmdCount = s.cmdCount := rfl
@[simp] theorem writeF_inFlight (s : State) (i : FIdx) (v : Reg) : (s.writeF i v).inFlight = s.inFlight := rfl
@[simp] theorem writeF_err (s : State) (i : FIdx) (v : Reg) : (s.writeF i v).err = s.err := rfl
@[simp] theorem writeF_errPc (s : State) (i : FIdx) (v : Reg) : (s.writeF i v).errPc = s.errPc := rfl
@[simp] theorem writeF_errCmd (s : State) (i : FIdx) (v : Reg) : (s.writeF i v).errCmd = s.errCmd := rfl
@[simp] theorem writeF_ladder (s : State) (i : FIdx) (v : Reg) : (s.writeF i v).ladder = s.ladder := rfl
@[simp] theorem writeF_inbox (s : State) (i : FIdx) (v : Reg) : (s.writeF i v).inbox = s.inbox := rfl
@[simp] theorem writeF_history (s : State) (i : FIdx) (v : Reg) : (s.writeF i v).history = s.history := rfl
@[simp] theorem writeF_latency (s : State) (i : FIdx) (v : Reg) : (s.writeF i v).latency = s.latency := rfl
@[simp] theorem writeF_draws (s : State) (i : FIdx) (v : Reg) : (s.writeF i v).draws = s.draws := rfl

/-! ### writeP -/

@[simp] theorem writeP_f (s : State) (i : PIdx) (r : PReg) : (s.writeP i r).f = s.f := rfl
@[simp] theorem writeP_p (s : State) (i : PIdx) (r : PReg) : (s.writeP i r).p = s.p.set i.val r i.isLt := rfl
@[simp] theorem writeP_cmdCount (s : State) (i : PIdx) (r : PReg) : (s.writeP i r).cmdCount = s.cmdCount := rfl
@[simp] theorem writeP_inFlight (s : State) (i : PIdx) (r : PReg) : (s.writeP i r).inFlight = s.inFlight := rfl
@[simp] theorem writeP_err (s : State) (i : PIdx) (r : PReg) : (s.writeP i r).err = s.err := rfl
@[simp] theorem writeP_errPc (s : State) (i : PIdx) (r : PReg) : (s.writeP i r).errPc = s.errPc := rfl
@[simp] theorem writeP_errCmd (s : State) (i : PIdx) (r : PReg) : (s.writeP i r).errCmd = s.errCmd := rfl
@[simp] theorem writeP_ladder (s : State) (i : PIdx) (r : PReg) : (s.writeP i r).ladder = s.ladder := rfl
@[simp] theorem writeP_inbox (s : State) (i : PIdx) (r : PReg) : (s.writeP i r).inbox = s.inbox := rfl
@[simp] theorem writeP_history (s : State) (i : PIdx) (r : PReg) : (s.writeP i r).history = s.history := rfl
@[simp] theorem writeP_latency (s : State) (i : PIdx) (r : PReg) : (s.writeP i r).latency = s.latency := rfl
@[simp] theorem writeP_draws (s : State) (i : PIdx) (r : PReg) : (s.writeP i r).draws = s.draws := rfl

/-! ### retire -/

@[simp] theorem retire_f (s : State) : (s.retire).f = s.f := rfl
@[simp] theorem retire_p (s : State) : (s.retire).p = s.p := rfl
@[simp] theorem retire_cmdCount (s : State) : (s.retire).cmdCount = s.cmdCount + 1#32 := rfl
@[simp] theorem retire_inFlight (s : State) : (s.retire).inFlight = none := rfl
@[simp] theorem retire_err (s : State) : (s.retire).err = s.err := rfl
@[simp] theorem retire_errPc (s : State) : (s.retire).errPc = s.errPc := rfl
@[simp] theorem retire_errCmd (s : State) : (s.retire).errCmd = s.errCmd := rfl
@[simp] theorem retire_ladder (s : State) : (s.retire).ladder = s.ladder := rfl
@[simp] theorem retire_inbox (s : State) : (s.retire).inbox = s.inbox := rfl
@[simp] theorem retire_history (s : State) : (s.retire).history = s.history := rfl
@[simp] theorem retire_latency (s : State) : (s.retire).latency = 0 := rfl
@[simp] theorem retire_draws (s : State) : (s.retire).draws = s.draws := rfl

/-! ### latchError -/

@[simp] theorem latchError_f (s : State) (c : ErrorCode) (w : Word) : (s.latchError c w).f = s.f := by unfold State.latchError; split <;> rfl
@[simp] theorem latchError_p (s : State) (c : ErrorCode) (w : Word) : (s.latchError c w).p = s.p := by unfold State.latchError; split <;> rfl
@[simp] theorem latchError_cmdCount (s : State) (c : ErrorCode) (w : Word) : (s.latchError c w).cmdCount = s.cmdCount := by unfold State.latchError; split <;> rfl
@[simp] theorem latchError_inFlight (s : State) (c : ErrorCode) (w : Word) : (s.latchError c w).inFlight = s.inFlight := by unfold State.latchError; split <;> rfl
@[simp] theorem latchError_ladder (s : State) (c : ErrorCode) (w : Word) : (s.latchError c w).ladder = s.ladder := by unfold State.latchError; split <;> rfl
@[simp] theorem latchError_inbox (s : State) (c : ErrorCode) (w : Word) : (s.latchError c w).inbox = s.inbox := by unfold State.latchError; split <;> rfl
@[simp] theorem latchError_history (s : State) (c : ErrorCode) (w : Word) : (s.latchError c w).history = s.history := by unfold State.latchError; split <;> rfl
@[simp] theorem latchError_latency (s : State) (c : ErrorCode) (w : Word) : (s.latchError c w).latency = s.latency := by unfold State.latchError; split <;> rfl
@[simp] theorem latchError_draws (s : State) (c : ErrorCode) (w : Word) : (s.latchError c w).draws = s.draws := by unfold State.latchError; split <;> rfl

/-! ### raise -/

@[simp] theorem raise_f (s : State) (c : ErrorCode) : (s.raise c).f = s.f := by simp [State.raise]
@[simp] theorem raise_p (s : State) (c : ErrorCode) : (s.raise c).p = s.p := by simp [State.raise]
@[simp] theorem raise_cmdCount (s : State) (c : ErrorCode) : (s.raise c).cmdCount = s.cmdCount := by simp [State.raise]
@[simp] theorem raise_inFlight (s : State) (c : ErrorCode) : (s.raise c).inFlight = none := rfl
@[simp] theorem raise_ladder (s : State) (c : ErrorCode) : (s.raise c).ladder = s.ladder := by simp [State.raise]
@[simp] theorem raise_inbox (s : State) (c : ErrorCode) : (s.raise c).inbox = s.inbox := by simp [State.raise]
@[simp] theorem raise_history (s : State) (c : ErrorCode) : (s.raise c).history = s.history := by simp [State.raise]
@[simp] theorem raise_latency (s : State) (c : ErrorCode) : (s.raise c).latency = 0 := rfl
@[simp] theorem raise_draws (s : State) (c : ErrorCode) : (s.raise c).draws = s.draws := by simp [State.raise]

/-! ### clearError -/

@[simp] theorem clearError_f (s : State) : (s.clearError).f = s.f := by unfold State.clearError; split <;> rfl
@[simp] theorem clearError_p (s : State) : (s.clearError).p = s.p := by unfold State.clearError; split <;> rfl
@[simp] theorem clearError_cmdCount (s : State) : (s.clearError).cmdCount = s.cmdCount := by unfold State.clearError; split <;> rfl
@[simp] theorem clearError_inFlight (s : State) : (s.clearError).inFlight = s.inFlight := by unfold State.clearError; split <;> rfl
@[simp] theorem clearError_ladder (s : State) : (s.clearError).ladder = s.ladder := by unfold State.clearError; split <;> rfl
@[simp] theorem clearError_inbox (s : State) : (s.clearError).inbox = s.inbox := by unfold State.clearError; split <;> rfl
@[simp] theorem clearError_history (s : State) : (s.clearError).history = s.history := by unfold State.clearError; split <;> rfl
@[simp] theorem clearError_latency (s : State) : (s.clearError).latency = s.latency := by unfold State.clearError; split <;> rfl
@[simp] theorem clearError_draws (s : State) : (s.clearError).draws = s.draws := by unfold State.clearError; split <;> rfl

/-! ### forgetF -/

@[simp] theorem forgetF_f (s : State) (d : FIdx) : (s.forgetF d).f = s.f.set d.val (Config.unspecifiedReg s.draws) d.isLt := rfl
@[simp] theorem forgetF_p (s : State) (d : FIdx) : (s.forgetF d).p = s.p := rfl
@[simp] theorem forgetF_cmdCount (s : State) (d : FIdx) : (s.forgetF d).cmdCount = s.cmdCount := rfl
@[simp] theorem forgetF_inFlight (s : State) (d : FIdx) : (s.forgetF d).inFlight = s.inFlight := rfl
@[simp] theorem forgetF_err (s : State) (d : FIdx) : (s.forgetF d).err = s.err := rfl
@[simp] theorem forgetF_errPc (s : State) (d : FIdx) : (s.forgetF d).errPc = s.errPc := rfl
@[simp] theorem forgetF_errCmd (s : State) (d : FIdx) : (s.forgetF d).errCmd = s.errCmd := rfl
@[simp] theorem forgetF_ladder (s : State) (d : FIdx) : (s.forgetF d).ladder = s.ladder := rfl
@[simp] theorem forgetF_inbox (s : State) (d : FIdx) : (s.forgetF d).inbox = s.inbox := rfl
@[simp] theorem forgetF_history (s : State) (d : FIdx) : (s.forgetF d).history = s.history := rfl
@[simp] theorem forgetF_latency (s : State) (d : FIdx) : (s.forgetF d).latency = s.latency := rfl
@[simp] theorem forgetF_draws (s : State) (d : FIdx) : (s.forgetF d).draws = s.draws + 1 := rfl

/-! ### forgetP -/

@[simp] theorem forgetP_f (s : State) (d : PIdx) : (s.forgetP d).f = s.f := rfl
@[simp] theorem forgetP_p (s : State) (d : PIdx) : (s.forgetP d).p = s.p.set d.val (unspecifiedPoint s.draws) d.isLt := rfl
@[simp] theorem forgetP_cmdCount (s : State) (d : PIdx) : (s.forgetP d).cmdCount = s.cmdCount := rfl
@[simp] theorem forgetP_inFlight (s : State) (d : PIdx) : (s.forgetP d).inFlight = s.inFlight := rfl
@[simp] theorem forgetP_err (s : State) (d : PIdx) : (s.forgetP d).err = s.err := rfl
@[simp] theorem forgetP_errPc (s : State) (d : PIdx) : (s.forgetP d).errPc = s.errPc := rfl
@[simp] theorem forgetP_errCmd (s : State) (d : PIdx) : (s.forgetP d).errCmd = s.errCmd := rfl
@[simp] theorem forgetP_ladder (s : State) (d : PIdx) : (s.forgetP d).ladder = s.ladder := rfl
@[simp] theorem forgetP_inbox (s : State) (d : PIdx) : (s.forgetP d).inbox = s.inbox := rfl
@[simp] theorem forgetP_history (s : State) (d : PIdx) : (s.forgetP d).history = s.history := rfl
@[simp] theorem forgetP_latency (s : State) (d : PIdx) : (s.forgetP d).latency = s.latency := rfl
@[simp] theorem forgetP_draws (s : State) (d : PIdx) : (s.forgetP d).draws = s.draws + 2 := rfl

/-! ### forgetLadder -/

@[simp] theorem forgetLadder_f (s : State) : (s.forgetLadder).f = s.f := rfl
@[simp] theorem forgetLadder_p (s : State) : (s.forgetLadder).p = s.p := rfl
@[simp] theorem forgetLadder_cmdCount (s : State) : (s.forgetLadder).cmdCount = s.cmdCount := rfl
@[simp] theorem forgetLadder_inFlight (s : State) : (s.forgetLadder).inFlight = s.inFlight := rfl
@[simp] theorem forgetLadder_err (s : State) : (s.forgetLadder).err = s.err := rfl
@[simp] theorem forgetLadder_errPc (s : State) : (s.forgetLadder).errPc = s.errPc := rfl
@[simp] theorem forgetLadder_errCmd (s : State) : (s.forgetLadder).errCmd = s.errCmd := rfl
@[simp] theorem forgetLadder_ladder (s : State) : (s.forgetLadder).ladder = unspecifiedLadder s.draws := rfl
@[simp] theorem forgetLadder_inbox (s : State) : (s.forgetLadder).inbox = s.inbox := rfl
@[simp] theorem forgetLadder_history (s : State) : (s.forgetLadder).history = s.history := rfl
@[simp] theorem forgetLadder_latency (s : State) : (s.forgetLadder).latency = s.latency := rfl
@[simp] theorem forgetLadder_draws (s : State) : (s.forgetLadder).draws = s.draws + 5 := rfl

/-! ### resetControl -/

@[simp] theorem resetControl_f (s : State) : (s.resetControl).f = s.f := rfl
@[simp] theorem resetControl_p (s : State) : (s.resetControl).p = s.p := rfl
@[simp] theorem resetControl_cmdCount (s : State) : (s.resetControl).cmdCount = 0#32 := rfl
@[simp] theorem resetControl_inFlight (s : State) : (s.resetControl).inFlight = none := rfl
@[simp] theorem resetControl_err (s : State) : (s.resetControl).err = none := rfl
@[simp] theorem resetControl_errPc (s : State) : (s.resetControl).errPc = 0#32 := rfl
@[simp] theorem resetControl_errCmd (s : State) : (s.resetControl).errCmd = 0#32 := rfl
@[simp] theorem resetControl_ladder (s : State) : (s.resetControl).ladder = s.ladder := rfl
@[simp] theorem resetControl_inbox (s : State) : (s.resetControl).inbox = s.inbox := rfl
@[simp] theorem resetControl_history (s : State) : (s.resetControl).history = s.history := rfl
@[simp] theorem resetControl_latency (s : State) : (s.resetControl).latency = 0 := rfl
@[simp] theorem resetControl_draws (s : State) : (s.resetControl).draws = s.draws := rfl

/-! ### record -/

@[simp] theorem record_f (s : State) (e : PortEvent) : (s.record e).f = s.f := rfl
@[simp] theorem record_p (s : State) (e : PortEvent) : (s.record e).p = s.p := rfl
@[simp] theorem record_cmdCount (s : State) (e : PortEvent) : (s.record e).cmdCount = s.cmdCount := rfl
@[simp] theorem record_inFlight (s : State) (e : PortEvent) : (s.record e).inFlight = s.inFlight := rfl
@[simp] theorem record_err (s : State) (e : PortEvent) : (s.record e).err = s.err := rfl
@[simp] theorem record_errPc (s : State) (e : PortEvent) : (s.record e).errPc = s.errPc := rfl
@[simp] theorem record_errCmd (s : State) (e : PortEvent) : (s.record e).errCmd = s.errCmd := rfl
@[simp] theorem record_ladder (s : State) (e : PortEvent) : (s.record e).ladder = s.ladder := rfl
@[simp] theorem record_inbox (s : State) (e : PortEvent) : (s.record e).inbox = s.inbox := rfl
@[simp] theorem record_latency (s : State) (e : PortEvent) : (s.record e).latency = s.latency := rfl
@[simp] theorem record_draws (s : State) (e : PortEvent) : (s.record e).draws = s.draws := rfl
@[simp] theorem record_history (s : State) (e : PortEvent) : (s.record e).history = s.history ++ [e] := rfl
@[simp] theorem readF_record (s : State) (e : PortEvent) (j : FIdx) : (s.record e).readF j = s.readF j := rfl
@[simp] theorem readP_record (s : State) (e : PortEvent) (j : PIdx) : (s.record e).readP j = s.readP j := rfl

/-! ### Reading after writing -/

@[simp] theorem readF_writeF_self (s : State) (i : FIdx) (v : Reg) : (s.writeF i v).readF i = v := by
  simp [readF, writeF]

theorem readF_writeF_of_ne (s : State) {i j : FIdx} (v : Reg) (h : j ≠ i) : (s.writeF i v).readF j = s.readF j := by
  have : i.val ≠ j.val := fun e => h (Fin.ext e.symm)
  simp [readF, writeF, this]

@[simp] theorem readP_writeP_self (s : State) (i : PIdx) (r : PReg) : (s.writeP i r).readP i = r := by
  simp [readP, writeP]

theorem readP_writeP_of_ne (s : State) {i j : PIdx} (r : PReg) (h : j ≠ i) : (s.writeP i r).readP j = s.readP j := by
  have : i.val ≠ j.val := fun e => h (Fin.ext e.symm)
  simp [readP, writeP, this]

@[simp] theorem readP_writeF (s : State) (i : FIdx) (v : Reg) (j : PIdx) : (s.writeF i v).readP j = s.readP j := rfl
@[simp] theorem readF_writeP (s : State) (i : PIdx) (r : PReg) (j : FIdx) : (s.writeP i r).readF j = s.readF j := rfl
@[simp] theorem readF_retire (s : State) (j : FIdx) : s.retire.readF j = s.readF j := rfl
@[simp] theorem readP_retire (s : State) (j : PIdx) : s.retire.readP j = s.readP j := rfl
@[simp] theorem readF_raise (s : State) (c : ErrorCode) (j : FIdx) : (s.raise c).readF j = s.readF j := by simp [readF]
@[simp] theorem readP_raise (s : State) (c : ErrorCode) (j : PIdx) : (s.raise c).readP j = s.readP j := by simp [readP]

/-! ### The error latch -/

theorem latchError_of_clear (s : State) (c : ErrorCode) (w : Word) (h : s.err = none) :
    s.latchError c w = { s with err := some c, errPc := s.cmdCount, errCmd := w } := by
  simp [latchError, h]

theorem latchError_of_latched (s : State) (c : ErrorCode) (w : Word) (h : s.err.isSome) : s.latchError c w = s := by
  obtain ⟨e, he⟩ := Option.isSome_iff_exists.mp h
  simp [latchError, he]

theorem clearError_of_clear (s : State) (h : s.err = none) : s.clearError = s := by
  simp [clearError, h]

theorem clearError_of_latched (s : State) (h : s.err.isSome) :
    s.clearError = { s with err := none, errPc := 0#32, errCmd := 0#32 } := by
  obtain ⟨e, he⟩ := Option.isSome_iff_exists.mp h
  simp [clearError, he]

@[simp] theorem clearError_err (s : State) : s.clearError.err = none := by
  unfold clearError; split <;> simp_all

theorem offer_dueCommand (s : State) (w : Word) : (s.offer w).dueCommand = some w := by
  simp [offer, dueCommand]

end Sys2Proof.Machine.State
end

