-- ==== Sys2Proof/Laws/Ops.lean ====
section
/-! SUPPORT. One lemma per shared operation that says everything it can do: retiring with an F or a P destination, error entry,
the error latch, what a host move other than a reset leaves alone. -/

namespace Sys2Proof.Laws

open Sys2Proof.Machine

theorem retired_writeF_retire (s : State) (d : FIdx) (v : Reg) : Retired s (s.writeF d v).retire :=
  ⟨rfl, rfl, ⟨rfl, rfl, rfl⟩, ⟨rfl, rfl, rfl⟩⟩

/-- Retiring with an F destination, for a result below 2^256 (every result is). -/
theorem finishF_spec (s : State) (d : FIdx) {v : Nat} (h : v < 2 ^ 256) : RetiredF d v s (s.finishF d v) where
  value := by rw [State.natF, State.finishF, State.readF_retire, State.readF_writeF_self, toNat_ofNat_of_lt h]
  frame := ⟨fun i hi => by simp [State.finishF, State.readF_writeF_of_ne s _ hi], fun _ => rfl, rfl⟩
  retired := retired_writeF_retire s d _

/-- Retiring with a P destination. -/
theorem finishP_spec (s : State) (d : PIdx) (r : PReg) : RetiredP d r s (s.finishP d r) where
  value := by simp [State.finishP]
  frame := ⟨fun _ => rfl, fun i hi => by simp [State.finishP, State.readP_writeP_of_ne s _ hi]⟩
  retired := ⟨rfl, rfl, ⟨rfl, rfl, rfl⟩, ⟨rfl, rfl, rfl⟩⟩

/-- The latch takes the first error only. -/
theorem latchError_spec (c : ErrorCode) (w : Word) (s : State) : Latched c w s (s.latchError c w) where
  first h := by simp [State.latchError_of_clear s c w h]
  later h := by
    rw [State.latchError_of_latched s c w (Option.isSome_iff_ne_none.mpr h)]
    exact ⟨rfl, rfl, rfl⟩

/-- Error entry. -/
theorem raise_spec (s : State) (c : ErrorCode) {w : Word} (h : s.inFlight = some w) : Raised c w s (s.raise c) where
  regs := ⟨fun _ => by simp, fun _ => by simp, by simp⟩
  count := by simp
  idle := by simp [State.busy]
  host := ⟨by simp, by simp, by simp⟩
  latch := by
    obtain ⟨h1, h2⟩ := latchError_spec c w s
    constructor <;> intro he
    · simpa [State.raise, h] using h1 he
    · obtain ⟨a, b, d⟩ := h2 he
      exact ⟨by simpa [State.raise, h] using a, by simpa [State.raise, h] using b, by simpa [State.raise, h] using d⟩

/-- A P register written with a point value is stored as R22 says. -/
theorem toPReg_stored {q : Point} (h : q.Canonical) : q.toPReg.Stored := by
  cases q with
  | inf => exact ⟨fun _ => ⟨rfl, rfl⟩, fun h => nomatch h⟩
  | aff x y =>
    refine ⟨fun h => (nomatch h), fun _ => ?_⟩
    rw [Point.toPReg, toNat_ofNat_of_lt_p h.1, toNat_ofNat_of_lt_p h.2]
    exact h

/-- A stored point register stands for a point value. -/
theorem toPoint_canonical {r : PReg} (h : r.Stored) : r.toPoint.Canonical := by
  unfold PReg.toPoint
  cases hr : r.inf with
  | true => trivial
  | false => exact h.2 hr

/-- Reading back a point value that was stored. -/
theorem toPoint_toPReg {q : Point} (h : q.Canonical) : q.toPReg.toPoint = q := by
  cases q with
  | inf => rfl
  | aff x y =>
    simp only [Point.toPReg, PReg.toPoint, toNat_ofNat_of_lt_p h.1, toNat_ofNat_of_lt_p h.2]
    rfl

/-- Storing the value of a stored point register gives it back. -/
theorem toPReg_toPoint {r : PReg} (h : r.Stored) : r.toPoint.toPReg = r := by
  obtain ⟨i, x, y⟩ := r
  cases i with
  | true =>
    obtain ⟨hx, hy⟩ := h.1 rfl
    simp only at hx hy
    simp [PReg.toPoint, Point.toPReg, PReg.infinity, hx, hy]
  | false => simp [PReg.toPoint, Point.toPReg]

/-- An unspecified P register still meets the storage invariant (R22). -/
theorem unspecifiedPoint_stored (n : Nat) : (unspecifiedPoint n).Stored := by
  unfold unspecifiedPoint
  split
  · exact toPReg_stored (q := .inf) trivial
  · exact toPReg_stored (q := .aff _ _) ⟨Nat.mod_lt _ p_pos, Nat.mod_lt _ p_pos⟩

/-- Doubling gives a point value (R76). -/
theorem pdbl_canonical (q : Point) : (pdbl q).Canonical := by
  cases q with
  | inf => trivial
  | aff x y =>
    rw [pdbl]
    split_ifs
    · trivial
    · exact ⟨fsub_lt _ _, fsub_lt _ _⟩

/-- Adding point values gives a point value (R77). -/
theorem padd_canonical {q r : Point} (hq : q.Canonical) (hr : r.Canonical) : (padd q r).Canonical := by
  cases q with
  | inf => exact hr
  | aff x1 y1 =>
    cases r with
    | inf => exact hq
    | aff x2 y2 =>
      rw [padd]
      split_ifs
      · exact pdbl_canonical _
      · trivial
      · exact ⟨fsub_lt _ _, fsub_lt _ _⟩

/-- Every iteration of the ladder keeps a property of points that doubling and addition keep. -/
theorem ladderRun_keeps {C : Point → Prop} (hdbl : ∀ q, C q → C (pdbl q)) (hadd : ∀ q r, C q → C r → C (padd q r)) (n : Nat) :
    ∀ (k : Nat) (l : LadderVals), C l.result → C l.addend →
      C (ladderRun n k l).result ∧ C (ladderRun n k l).addend
  | 0, _, h1, h2 => ⟨h1, h2⟩
  | k + 1, l, h1, h2 => by
    refine ladderRun_keeps hdbl hadd n k (ladderStep n l) ?_ (hdbl _ h2)
    unfold ladderStep
    simp only
    split
    · exact hadd _ _ h1 h2
    · exact h1

/-- The ladder keeps a property of points that doubling and addition keep and INF has (R78). -/
theorem pmul_keeps {C : Point → Prop} (hinf : C .inf) (hdbl : ∀ q, C q → C (pdbl q))
    (hadd : ∀ q r, C q → C r → C (padd q r)) {q : Point} (hq : C q) (n : Nat) : C (pmul q n) := by
  unfold pmul
  split
  · exact hinf
  · exact (ladderRun_keeps hdbl hadd n _ ⟨.inf, q, 0⟩ hinf hq).1

end Sys2Proof.Laws
end

