-- ==== Sys2Proof/Laws/Port.lean ====
section
/-! SUPPORT. The port: where the words of the registers stand, and what a host move can do. -/

namespace Sys2Proof.Laws

open Sys2Proof.Machine

/-! ### Where the words stand -/

/-- Word k of F register i (R39). -/
theorem portReg_fWord {off : Offset} {i : FIdx} {k : Fin 8} (h : off.toNat = 0x100 + 0x20 * i.val + 4 * k.val) :
    portReg off = .fWord i k ∧ accepted .word off = true := by
  have := i.isLt
  have := k.isLt
  refine ⟨?_, by simp [accepted, h]; omega⟩
  simp only [portReg, h]
  rw [if_neg (by omega), if_pos (by omega), fWordAt]
  congr 1 <;> (apply Fin.ext; simp [Fin.ofNat]; omega)

/-- Word k of the x coordinate of P register i (R40). -/
theorem portReg_pXWord {off : Offset} {i : PIdx} {k : Fin 8} (h : off.toNat = 0x400 + 0x40 * i.val + 4 * k.val) :
    portReg off = .pXWord i k ∧ accepted .word off = true := by
  have := i.isLt
  have := k.isLt
  refine ⟨?_, by simp [accepted, h]; omega⟩
  simp only [portReg, h]
  rw [if_neg (by omega), if_neg (by omega), if_pos (by omega), pWordAt, if_pos (by omega)]
  congr 1 <;> (apply Fin.ext; simp [Fin.ofNat]; omega)

/-- Word k of the y coordinate of P register i (R40). -/
theorem portReg_pYWord {off : Offset} {i : PIdx} {k : Fin 8} (h : off.toNat = 0x400 + 0x40 * i.val + 0x20 + 4 * k.val) :
    portReg off = .pYWord i k ∧ accepted .word off = true := by
  have := i.isLt
  have := k.isLt
  refine ⟨?_, by simp [accepted, h]; omega⟩
  simp only [portReg, h]
  rw [if_neg (by omega), if_neg (by omega), if_pos (by omega), pWordAt, if_neg (by omega)]
  congr 1 <;> (apply Fin.ext; simp [Fin.ofNat]; omega)

/-- CTRL stands at one offset only. -/
theorem off_of_portReg_ctrl {off : Offset} (h : portReg off = .ctrl) : off = 0x004#12 := by
  apply BitVec.eq_of_toNat_eq
  simp only [portReg] at h
  split_ifs at h
  · unfold Machine.controlAt at h; split_ifs at h; assumption
  · cases h
  · unfold pWordAt at h; split at h <;> cases h

/-! ### What host moves do -/

/-- A reply changes nothing in the block (R44). -/
theorem reply_spec (s : State) (width : Width) (off : Offset) (x : PortValue) :
    ∃ v, Replied width off v s (s.reply width off x) ∧ ∀ u, x = .value u → v = u := by
  cases x with
  | value v => exact ⟨v, ⟨⟨fun _ => rfl, fun _ => rfl, rfl⟩, ⟨rfl, rfl, rfl⟩, rfl, rfl, rfl⟩, fun u h => by cases h; rfl⟩
  | unspecified => exact ⟨_, ⟨⟨fun _ => rfl, fun _ => rfl, rfl⟩, ⟨rfl, rfl, rfl⟩, rfl, rfl, rfl⟩, fun u h => by cases h⟩

/-- A host read changes nothing in the block (R44). -/
theorem hostRead_spec (s : State) (width : Width) (off : Offset) : ∃ v, Replied width off v s (s.hostRead width off) :=
  (reply_spec s width off _).imp fun _ h => h.1

/-- Forgetting a destination changes at most that register. -/
theorem forgetDest_spec (s : State) (d : Dest) : OnlyDest d s (s.forgetDest d) := by
  cases d with
  | none => exact ⟨fun _ => rfl, fun _ => rfl, rfl⟩
  | f d => exact ⟨fun i hi => State.readF_writeF_of_ne s _ hi, fun _ => rfl, rfl⟩
  | p d => exact ⟨fun _ => rfl, fun i hi => State.readP_writeP_of_ne s _ hi⟩

/-- A host move made while a command is in flight ends it, by a reset, or leaves it in flight with its latency. -/
theorem perform_busy (s : State) (m : HostMove) (h : s.busy = true) :
    (s.perform m).busy = false ∨ ((s.perform m).inFlight = s.inFlight ∧ (s.perform m).latency = s.latency) := by
  cases m with
  | read width off =>
    right
    simp only [State.perform, State.hostRead]
    cases (if accepted width off then s.portRead (portReg off) else .value 0#32) <;> exact ⟨rfl, rfl⟩
  | write width off v =>
    simp only [State.perform, State.hostWrite]
    split
    · cases portReg off with
      | cmd => right; simp [State.portWrite, State.writeCmd, h, State.record]
      | fWord i k => right; simp [State.portWrite, State.writeFWord, h, State.record]
      | ctrl =>
        simp only [State.portWrite, State.writeCtrl]
        split
        · left; unfold State.softReset; split <;> rfl
        · right; split <;> simp [State.record]
      | _ => right; exact ⟨rfl, rfl⟩
    · right; exact ⟨rfl, rfl⟩
  | hardReset => left; rfl

end Sys2Proof.Laws
end

