-- ==== Sys2Proof/Laws/Step.lean ====
section
/-! SUPPORT. The step: which of its two forms it takes, runs of the machine, and that a performed word ends its command. -/

namespace Sys2Proof.Laws

open Sys2Proof.Machine

/-- A due command is in flight. -/
theorem inFlight_of_due {s : State} {w : Word} (h : s.dueCommand = some w) : s.inFlight = some w := by
  unfold State.dueCommand at h
  split at h
  · exact h
  · cases h

theorem step_of_due {s : State} {w : Word} (h : s.dueCommand = some w) : step s = runCommand w s := by
  simp [step, h]

theorem step_of_not_due {s : State} (h : s.dueCommand = none) : step s = .next s.hostMove := by
  simp [step, h]

/-- What a step can be: the performing of the due word, or the host's move. -/
theorem step_cases {s t : State} (h : step s = .next t) :
    (∃ w, s.inFlight = some w ∧ runCommand w s = .next t) ∨ (s.dueCommand = none ∧ t = s.hostMove) := by
  cases hd : s.dueCommand with
  | some w => exact .inl ⟨w, inFlight_of_due hd, by rw [← step_of_due hd, h]⟩
  | none =>
    rw [step_of_not_due hd] at h
    cases h
    exact .inr ⟨rfl, rfl⟩

/-- A run of one step more. -/
theorem run_succ {M : Host.Core} (k : Nat) {s t : M.State} (h : M.step s = .next t) : M.run (k + 1) s = M.run k t := by
  rw [Host.Core.run, h]

/-- An exec answer, whatever the command: retirement or error entry, and BUSY clears. -/
theorem exec_idle (i : Instr) (s : State) : ∃ t, exec i s = .next t ∧ t.busy = false := by
  cases i with
  | fdiv d a b => simp only [exec, execFdiv]; split <;> exact ⟨_, rfl, rfl⟩
  | finv d a => simp only [exec, execFinv]; split <;> exact ⟨_, rfl, rfl⟩
  | bits d a w => simp only [exec, execBits]; split <;> exact ⟨_, rfl, rfl⟩
  | brev d a w => simp only [exec, execBrev]; split <;> exact ⟨_, rfl, rfl⟩
  | wins d a k => simp only [exec, execWins]; split <;> exact ⟨_, rfl, rfl⟩
  | _ => exact ⟨_, rfl, rfl⟩

/-- Performing a word, legal or not, answers a next state in which BUSY = 0. -/
theorem runCommand_idle (w : Word) (s : State) : ∃ t, runCommand w s = .next t ∧ t.busy = false := by
  unfold runCommand
  split
  · exact exec_idle _ s
  · exact ⟨_, rfl, rfl⟩

end Sys2Proof.Laws
end

