-- ==== Sys2Proof/Laws/Observe.lean ====
section
/-! SUPPORT. The record of the port: what one event more does to the end of a run and to the observation, and which event a step
records. -/

namespace Sys2Proof.Laws

open Sys2Proof.Machine

/-- One event more. -/
theorem sinceLastCommand_append (h : List PortEvent) (e : PortEvent) :
    sinceLastCommand (h ++ [e]) = if e.offersCommand then [] else sinceLastCommand h ++ [e] := by
  cases he : e.offersCommand <;> simp [sinceLastCommand, he]

/-- One event more, after the end of the run. -/
theorem afterRun_append {h : List PortEvent} {e : PortEvent} (he : e.offersCommand = false)
    (hi : (sinceLastCommand h).any PortEvent.seesIdle = true) : afterRun (h ++ [e]) = afterRun h ++ [e] := by
  obtain ⟨x, hx, hs⟩ := List.any_eq_true.mp hi
  have hne : (sinceLastCommand h).dropWhile (fun e => !e.seesIdle) ≠ [] := by
    rw [Ne, List.dropWhile_eq_nil_iff]
    intro hall
    simpa [hs] using hall x hx
  obtain ⟨y, ys, hy⟩ := List.exists_cons_of_ne_nil hne
  rw [afterRun, afterRun, sinceLastCommand_append, he, if_neg Bool.false_ne_true, List.dropWhile_append, hy]
  rfl

/-- A command that ends leaves the host's side alone. -/
theorem exec_host {i : Instr} {s t : State} (h : exec i s = .next t) : t.inbox = s.inbox ∧ t.history = s.history := by
  cases i <;> simp only [exec, execFdiv, execFinv, execBits, execBrev, execWins] at h
  case fdiv | finv | bits | brev | wins =>
    split at h <;> cases h
    · exact ⟨by simp, by simp⟩
    · exact ⟨rfl, rfl⟩
  all_goals (cases h; exact ⟨rfl, rfl⟩)

/-- So does the performing of any word. -/
theorem runCommand_host {w : Word} {s t : State} (h : runCommand w s = .next t) :
    t.inbox = s.inbox ∧ t.history = s.history := by
  unfold runCommand at h
  split at h
  · exact exec_host h
  · cases h
    exact ⟨by simp, by simp⟩

/-- A write leaves the moves to come and the record alone; `perform` adds the event. -/
theorem hostWrite_host (s : State) (width : Width) (off : Offset) (v : Word) :
    (s.hostWrite width off v).inbox = s.inbox ∧ (s.hostWrite width off v).history = s.history := by
  have hf : ∀ d : Dest, (s.forgetDest d).inbox = s.inbox ∧ (s.forgetDest d).history = s.history := by
    intro d; cases d <;> exact ⟨rfl, rfl⟩
  unfold State.hostWrite
  split
  · cases portReg off <;> simp only [State.portWrite]
    case cmd => unfold State.writeCmd; split_ifs <;> exact ⟨by simp, by simp⟩
    case fWord i k => unfold State.writeFWord; split_ifs <;> exact ⟨by simp, by simp⟩
    case ctrl =>
      unfold State.writeCtrl
      split_ifs
      · unfold State.softReset
        split
        · exact ⟨rfl, rfl⟩
        · unfold State.abandon
          split
          · exact ⟨rfl, rfl⟩
          · split
            · exact hf _
            · exact hf _
      · exact ⟨by simp, by simp⟩
      · exact ⟨rfl, rfl⟩
    all_goals exact ⟨trivial, trivial⟩
  · exact ⟨rfl, rfl⟩

/-- A host move takes nothing from the moves to come and records one event, which writes CMD exactly if the move does. -/
theorem perform_host (s : State) (m : HostMove) : (s.perform m).inbox = s.inbox ∧
    ∃ e, (s.perform m).history = s.history ++ [e] ∧ e.offersCommand = m.offersCommand := by
  cases m with
  | read width off =>
    obtain ⟨v, h⟩ := hostRead_spec s width off
    refine ⟨?_, _, h.history, rfl⟩
    simp only [State.perform, State.hostRead]
    cases (if accepted width off then s.portRead (portReg off) else .value 0#32) <;> rfl
  | write width off v =>
    obtain ⟨h1, h2⟩ := hostWrite_host s width off v
    exact ⟨h1, _, by rw [State.perform, State.record_history, h2], rfl⟩
  | hardReset => exact ⟨rfl, _, rfl, rfl⟩

end Sys2Proof.Laws
end

