-- ==== Sys2Proof/Laws/PerInstr.lean ====
section
/-! SUPPORT. Statements for all commands, one lemma per constructor. Family `OpcodeAndFormat`: the word of every command carries
the opcode of its row of the opcode map in bits 31:24, and the fields that its format does not use are zero (30_encoding R54,
R55, R58). -/

namespace Sys2Proof.Laws.OpcodeAndFormat

/-- What the family says of one command. -/
def Statement (i : Instr) : Prop := opcField (encode i) = i.op.opc ∧ i.op.format.unusedZero (encode i) = true

theorem nop : Statement (.nop) := by
  simp [Statement, encode, regWord, Instr.op, Op.format, Format.unusedZero]

theorem mov (d : FIdx) (a : FIdx) : Statement (.mov d a) := by
  simp [Statement, encode, regWord, Instr.op, Op.format, Format.unusedZero]

theorem ldi (d : FIdx) (imm : BitVec 16) : Statement (.ldi d imm) := by
  simp [Statement, encode, Instr.op, Op.format, Format.unusedZero]

theorem fadd (d : FIdx) (a : FIdx) (b : FIdx) : Statement (.fadd d a b) := by
  simp [Statement, encode, regWord, Instr.op, Op.format, Format.unusedZero]

theorem fsub (d : FIdx) (a : FIdx) (b : FIdx) : Statement (.fsub d a b) := by
  simp [Statement, encode, regWord, Instr.op, Op.format, Format.unusedZero]

theorem fmul (d : FIdx) (a : FIdx) (b : FIdx) : Statement (.fmul d a b) := by
  simp [Statement, encode, regWord, Instr.op, Op.format, Format.unusedZero]

theorem fdiv (d : FIdx) (a : FIdx) (b : FIdx) : Statement (.fdiv d a b) := by
  simp [Statement, encode, regWord, Instr.op, Op.format, Format.unusedZero]

theorem finv (d : FIdx) (a : FIdx) : Statement (.finv d a) := by
  simp [Statement, encode, regWord, Instr.op, Op.format, Format.unusedZero]

theorem fexp (d : FIdx) (a : FIdx) (b : FIdx) : Statement (.fexp d a b) := by
  simp [Statement, encode, regWord, Instr.op, Op.format, Format.unusedZero]

theorem fexpm (d : FIdx) (a : FIdx) (b : FIdx) (m : FIdx) : Statement (.fexpm d a b m) := by
  simp [Statement, encode, regWord, Instr.op, Op.format, Format.unusedZero]

theorem fred (d : FIdx) (a : FIdx) : Statement (.fred d a) := by
  simp [Statement, encode, regWord, Instr.op, Op.format, Format.unusedZero]

theorem pgen (d : PIdx) : Statement (.pgen d) := by
  simp [Statement, encode, regWord, Instr.op, Op.format, Format.unusedZero]

theorem pset (d : PIdx) (a : FIdx) (b : FIdx) : Statement (.pset d a b) := by
  simp [Statement, encode, regWord, Instr.op, Op.format, Format.unusedZero]

theorem px (d : FIdx) (a : PIdx) : Statement (.px d a) := by
  simp [Statement, encode, regWord, Instr.op, Op.format, Format.unusedZero]

theorem py (d : FIdx) (a : PIdx) : Statement (.py d a) := by
  simp [Statement, encode, regWord, Instr.op, Op.format, Format.unusedZero]

theorem pdbl (d : PIdx) (a : PIdx) : Statement (.pdbl d a) := by
  simp [Statement, encode, regWord, Instr.op, Op.format, Format.unusedZero]

theorem padd (d : PIdx) (a : PIdx) (b : PIdx) : Statement (.padd d a b) := by
  simp [Statement, encode, regWord, Instr.op, Op.format, Format.unusedZero]

theorem pmul (d : PIdx) (a : PIdx) (b : FIdx) : Statement (.pmul d a b) := by
  simp [Statement, encode, regWord, Instr.op, Op.format, Format.unusedZero]

theorem bits (d : FIdx) (a : FIdx) (w : Nat) : Statement (.bits d a w) := by
  simp [Statement, encode, riWord, Instr.op, Op.format, Format.unusedZero]

theorem brev (d : FIdx) (a : FIdx) (w : Nat) : Statement (.brev d a w) := by
  simp [Statement, encode, riWord, Instr.op, Op.format, Format.unusedZero]

theorem wsplit (d : FIdx) (a : FIdx) (k : Nat) : Statement (.wsplit d a k) := by
  simp [Statement, encode, riWord, Instr.op, Op.format, Format.unusedZero]

theorem wins (d : FIdx) (a : FIdx) (k : Nat) : Statement (.wins d a k) := by
  simp [Statement, encode, riWord, Instr.op, Op.format, Format.unusedZero]

theorem fpack (d : FIdx) (a : FIdx) (h : Nat) : Statement (.fpack d a h) := by
  simp [Statement, encode, riWord, Instr.op, Op.format, Format.unusedZero]

end Sys2Proof.Laws.OpcodeAndFormat
end

