-- ==== Sys2Proof/Laws/Prime.lean ====
section
/-! SUPPORT. The field modulus is prime (40_field R74 marks this as general knowledge and asks a model to prove it or to name it
as an assumption): a Lucas certificate, checked by the model's own exponentiation. -/

namespace Sys2Proof.Laws

open Sys2Proof.Machine

/-- Lucas's test: `g` has order exactly `n - 1`, whose prime factors are those of `fs`. -/
theorem prime_of_certificate {n : Nat} (g : Nat) (fs : List Nat) (h1 : 1 < n) (hsize : n < 2 ^ 256)
    (hprime : ∀ q ∈ fs, q.Prime) (hprod : fs.prod = n - 1)
    (hone : powMod n 256 g (n - 1) = 1) (hne : ∀ q ∈ fs, powMod n 256 g ((n - 1) / q) ≠ 1) : n.Prime := by
  have cast_pow : ∀ e, e < 2 ^ 256 → ((g : ZMod n) ^ e = 1 ↔ powMod n 256 g e = 1) := by
    intro e he
    rw [powMod_eq n 256 g e he, ← Nat.cast_pow, ← Nat.cast_one (R := ZMod n), ZMod.natCast_eq_natCast_iff',
      Nat.mod_eq_of_lt h1]
  refine lucas_primality n (g : ZMod n) ((cast_pow _ (by omega)).mpr hone) fun q hq hdvd => ?_
  rw [← hprod] at hdvd
  obtain ⟨r, hr, hqr⟩ := (Nat.Prime.prime hq).dvd_prod_iff.mp hdvd
  have : q = r := (Nat.prime_dvd_prime_iff_eq hq (hprime r hr)).mp hqr
  subst this
  have hlt : (n - 1) / q < 2 ^ 256 := lt_of_le_of_lt (Nat.div_le_self _ _) (by omega)
  exact fun h => hne q hr ((cast_pow _ hlt).mp h)

theorem prime_405928799 : Nat.Prime 405928799 :=
  prime_of_certificate 22 [2, 11, 3691, 4999] (by decide) (by decide) (by norm_num) (by decide)
    (by decide +kernel) (by decide +kernel)

theorem prime_12048837557 : Nat.Prime 12048837557 :=
  prime_of_certificate 2 [2, 2, 7, 7, 661, 93001] (by decide) (by decide) (by norm_num) (by decide)
    (by decide +kernel) (by decide +kernel)

theorem prime_5156902474397 : Nat.Prime 5156902474397 :=
  prime_of_certificate 2 [2, 2, 107, 12048837557] (by decide) (by decide)
    (by simp [prime_12048837557]; norm_num) (by decide) (by decide +kernel) (by decide +kernel)

theorem prime_1670836401704629 : Nat.Prime 1670836401704629 :=
  prime_of_certificate 2 [2, 2, 3, 3, 3, 3, 5156902474397] (by decide) (by decide)
    (by simp [prime_5156902474397]; norm_num) (by decide) (by decide +kernel) (by decide +kernel)

theorem prime_639533339 : Nat.Prime 639533339 :=
  prime_of_certificate 2 [2, 229, 853, 1637] (by decide) (by decide) (by norm_num) (by decide)
    (by decide +kernel) (by decide +kernel)

theorem prime_65865678001877903 : Nat.Prime 65865678001877903 :=
  prime_of_certificate 5 [2, 83, 379, 1637, 639533339] (by decide) (by decide)
    (by simp [prime_639533339]; norm_num) (by decide) (by decide +kernel) (by decide +kernel)

theorem prime_13818364434197438864469338081 : Nat.Prime 13818364434197438864469338081 :=
  prime_of_certificate 3 [2, 2, 2, 2, 2, 5, 823, 1593227, 65865678001877903] (by decide) (by decide)
    (by simp [prime_65865678001877903]; norm_num) (by decide) (by decide +kernel) (by decide +kernel)

/-- The prime factors of p - 1. -/
def pFactors : List Nat :=
  List.replicate 28 2 ++
    [3, 3, 13, 29, 983, 11003, 237073, 405928799, 1670836401704629, 13818364434197438864469338081]

theorem pFactors_prime : ∀ q ∈ pFactors, q.Prime := by
  simp [pFactors, prime_405928799, prime_1670836401704629, prime_13818364434197438864469338081, Nat.prime_two]
  norm_num

/-- p is prime. -/
theorem p_prime : Nat.Prime Config.p :=
  prime_of_certificate 5 pFactors (by decide) (by decide) pFactors_prime (by decide +kernel)
    (by decide +kernel) (by decide +kernel)

/-- The inverse law in the field of integers modulo p (R74). -/
theorem pow_p_sub_two (a : ZMod Config.p) (h : a ≠ 0) : a ^ (Config.p - 2) = a⁻¹ := by
  have : Fact (Nat.Prime Config.p) := ⟨p_prime⟩
  have hcard := ZMod.pow_card_sub_one_eq_one h
  have hsucc : Config.p - 1 = (Config.p - 2) + 1 := by decide
  rw [hsucc, pow_succ] at hcard
  exact eq_inv_of_mul_eq_one_left hcard

end Sys2Proof.Laws
end

