-- ==== Sys2Proof/Tests/Slice0.lean ====
section
/-! SUPPORT. Tests of single steps. Expected values are those of 95_test_vectors (V-…, P1 to P4) or written out from the rule
named; each statement with hypotheses has a theorem `test_meets_…` that meets them. -/

namespace Sys2Proof.Tests

open Sys2Proof.Machine

-- One theorem after the other: many kernel evaluations at once need a stack each.
set_option Elab.async false

/-! ### Helpers -/

/-- The state with a number in an F register. -/
def putF (i : FIdx) (n : Nat) (s : State := State.reset) : State := s.writeF i (BitVec.ofNat 256 n)

/-- The state with a point in a P register. -/
def putP (i : PIdx) (q : Point) (s : State := State.reset) : State := s.writeP i q.toPReg

/-- The number an answer holds in an F register. -/
def outF (o : Out) (d : FIdx) : Option Nat :=
  match o with
  | .next t => some (t.natF d)
  | .fault _ | .refused _ => none

/-- The point an answer holds in a P register. -/
def outP (o : Out) (d : PIdx) : Option Point :=
  match o with
  | .next t => some (t.pointP d)
  | .fault _ | .refused _ => none

/-- STATUS, CMDCOUNT, ERRPC and ERRCMD of an answer. -/
def outControl (o : Out) : List Word :=
  match o with
  | .next t => [t.statusWord, t.cmdCount, t.errPc, t.errCmd]
  | .fault _ | .refused _ => []

/-- The answer of the step that performs a command word. -/
def perform (w : Nat) (s : State) : Out := step (s.withFetchWord 32 w)

/-- The buffer V of section 2.3: byte j is j. -/
def bufferV : Nat := 0x000102030405060708090A0B0C0D0E0F101112131415161718191A1B1C1D1E1F

/-- The points 2G, 3G and 6G of the table of 95_test_vectors. -/
def g2 : Point := .aff 9576106256429682909732802513550057851239909425182015025367964331626916216831
  3762041743597375428823600987466094155844250131321505902823128844567717085184

/-- See `g2`. -/
def g3 : Point := .aff 3353031288059533942658390886683067124018257005454921763367312015432060078554
  9219267825703472604525134401207926938879294737679236299959534577481019155125

/-- See `g2`. -/
def g6 : Point := .aff 16871563132712611889207374617876253056600942990440275496096608761584790102682
  3838344180602666607241702771172151008105832187458852540486498644210934342967

/-! ### Well-formedness -/

theorem test_wf_refuses_width_zero : ¬ (Instr.bits 0 1 0).WellFormed ∧ ¬ (Instr.brev 0 1 0).WellFormed := by decide

theorem test_wf_refuses_width_257 : ¬ (Instr.bits 0 1 257).WellFormed ∧ ¬ (Instr.brev 0 1 257).WellFormed := by decide

theorem test_wf_refuses_word_8 : ¬ (Instr.wsplit 0 1 8).WellFormed ∧ ¬ (Instr.wins 0 1 8).WellFormed := by decide

theorem test_wf_refuses_half_2 : ¬ (Instr.fpack 0 1 2).WellFormed := by decide

theorem test_wf_accepts_bounds : (Instr.bits 0 1 256).WellFormed ∧ (Instr.brev 0 1 1).WellFormed ∧
    (Instr.wsplit 0 1 7).WellFormed ∧ (Instr.wins 0 1 0).WellFormed ∧ (Instr.fpack 0 1 1).WellFormed := by decide

/-! ### Decoding: words written out from R54, R55 and R58, or listed in 95_test_vectors -/

/-- V-M1, V-M2, V-M4. -/
theorem test_decode_moves : decodeTableWord 32 0x00000000 = some .nop ∧ decodeTableWord 32 0x01230000 = some (.mov 2 3) ∧
    decodeTableWord 32 0x0200FFFF = some (.ldi 0 0xFFFF#16) := by decide

/-- V-D5; R55 R3 with opcodes 0x11, 0x12, 0x13 (P2 words 11322000, 12201000, 13402000). -/
theorem test_decode_field_add_mul : decodeTableWord 32 0x10123000 = some (.fadd 1 2 3) ∧
    decodeTableWord 32 0x11322000 = some (.fsub 3 2 2) ∧ decodeTableWord 32 0x12201000 = some (.fmul 2 0 1) ∧
    decodeTableWord 32 0x13402000 = some (.fdiv 4 0 2) := by decide

/-- P2 word 14430000; R55 R3 with opcode 0x15; V-D6; R55 R2 with opcode 0x17. -/
theorem test_decode_field_power : decodeTableWord 32 0x14430000 = some (.finv 4 3) ∧
    decodeTableWord 32 0x15ABC000 = some (.fexp 10 11 12) ∧ decodeTableWord 32 0x16123400 = some (.fexpm 1 2 3 4) ∧
    decodeTableWord 32 0x17EF0000 = some (.fred 14 15) := by decide

/-- Words of P1 and P4, and V-D10. -/
theorem test_decode_curve : decodeTableWord 32 0x20100000 = some (.pgen 1) ∧
    decodeTableWord 32 0x21300000 = some (.pset 3 0 0) ∧ decodeTableWord 32 0x22120000 = some (.px 1 2) ∧
    decodeTableWord 32 0x23430000 = some (.py 4 3) ∧ decodeTableWord 32 0x24100000 = some (.pdbl 1 0) ∧
    decodeTableWord 32 0x25210000 = some (.padd 2 1 0) ∧ decodeTableWord 32 0x2601F000 = some (.pmul 0 1 15) := by decide

/-- V-B1, V-B6, V-B11, V-B13, V-B16. -/
theorem test_decode_bitpack : decodeTableWord 32 0x30810007 = some (.bits 8 1 8) ∧
    decodeTableWord 32 0x31910007 = some (.brev 9 1 8) ∧ decodeTableWord 32 0x32D00007 = some (.wsplit 13 0 7) ∧
    decodeTableWord 32 0x33E40003 = some (.wins 14 4 3) ∧ decodeTableWord 32 0x34C00001 = some (.fpack 12 0 1) := by decide

/-- The encoder gives the words of V-D4, V-D6, V-D10, V-D11 and V-D13. -/
theorem test_encode_words : encode (.ldi 3 0x1234#16) = 0x02301234#32 ∧ encode (.fexpm 1 2 3 4) = 0x16123400#32 ∧
    encode (.pmul 0 1 15) = 0x2601F000#32 ∧ encode (.bits 0 1 256) = 0x300100FF#32 ∧
    encode (.fpack 0 1 1) = 0x34010001#32 := by decide

/-- V-D2, V-D3, V-D4, V-D5: a one in a field the format does not use. -/
theorem test_decode_refuses_must_be_zero : decode 0x00000001#32 = .error .mustBeZero ∧
    decode 0x01230001#32 = .error .mustBeZero ∧ decode 0x02311234#32 = .error .mustBeZero ∧
    decode 0x1012300F#32 = .error .mustBeZero := by decide

/-- V-D7, V-D8, V-D9, V-D12, V-D13: a point field, a word number or a half out of range. -/
theorem test_decode_refuses_range : decode 0x20800000#32 = .error .fieldRange ∧ decode 0x22080000#32 = .error .fieldRange ∧
    decode 0x25801000#32 = .error .fieldRange ∧ decode 0x32010008#32 = .error .fieldRange ∧
    decode 0x34010002#32 = .error .fieldRange := by decide

/-- V-D14. -/
theorem test_decode_refuses_reserved : decode 0x03000000#32 = .error .reservedOpcode ∧
    decode 0x18000000#32 = .error .reservedOpcode ∧ decode 0x27000000#32 = .error .reservedOpcode ∧
    decode 0x35000000#32 = .error .reservedOpcode ∧ decode 0xFF000000#32 = .error .reservedOpcode := by decide

/-! ### Moves -/

/-- V-M1. -/
theorem test_nop_counts :
    outControl (perform 0x00000000 { State.reset with cmdCount := 5#32 }) = [0#32, 6#32, 0#32, 0#32] := by decide +kernel

/-- V-M2. -/
theorem test_mov_does_not_reduce : outF (perform 0x01230000 (putF 3 (2 ^ 256 - 1))) 2 = some (2 ^ 256 - 1) := by decide +kernel

/-- V-M4: no sign extension. -/
theorem test_ldi_zero_extends : outF (perform 0x0200FFFF State.reset) 0 = some 65535 := by decide +kernel

/-! ### Field unit -/

/-- V-F2: the sum wraps above 2^256 and both operands are raw. -/
theorem test_fadd_raw_operands : outF (perform 0x10123000 (putF 2 (2 ^ 256 - 1) (putF 3 (2 ^ 256 - 1)))) 1 =
    some 12701749756239638624677912564803064821056325327120784641933126150068174323700 := by decide +kernel

/-- V-F3: the destination is a source. -/
theorem test_fadd_destination_is_source : outF (perform 0x10223000 (putF 2 2 (putF 3 3))) 2 = some 5 := by decide +kernel

/-- V-F4. -/
theorem test_fsub_below_zero : outF (perform 0x11123000 (putF 3 1)) 1 =
    some 21888242871839275222246405745257275088548364400416034343698204186575808495616 := by decide +kernel

/-- V-F5. -/
theorem test_fsub_raw_operand : outF (perform 0x11123000 (putF 2 5 (putF 3 (Config.p + 5)))) 1 = some 0 := by decide +kernel

/-- V-F8. -/
theorem test_fmul_reduces : outF (perform 0x12122000 (putF 2 (2 ^ 128))) 1 =
    some 6350874878119819312338956282401532410528162663560392320966563075034087161851 := by decide +kernel

/-- V-F11. -/
theorem test_fdiv_quotient : outF (perform 0x13123000 (putF 2 5 (putF 3 3))) 1 =
    some 7296080957279758407415468581752425029516121466805344781232734728858602831874 := by decide +kernel

/-- V-E2, V-E1: a divisor of p raises DIV_BY_ZERO, at CMDCOUNT 9. -/
theorem test_fdiv_by_p_raises : outControl (perform 0x13123000 (putF 3 Config.p { State.reset with cmdCount := 9#32 })) =
    [0x00000102#32, 9#32, 9#32, 0x13123000#32] := by decide +kernel

/-- V-F15, as word 1 of P2. -/
theorem test_finv_of_seven : outF (perform 0x14100000 (putF 0 7)) 1 =
    some 3126891838834182174606629392179610726935480628630862049099743455225115499374 := by decide +kernel

/-- P2, word 4. -/
theorem test_finv_of_zero_raises : outControl (perform 0x14430000 { State.reset with cmdCount := 4#32 }) =
    [0x00000102#32, 4#32, 4#32, 0x14430000#32] := by decide +kernel

/-- V-F21. -/
theorem test_fexp_zero_to_zero : outF (perform 0x15123000 State.reset) 1 = some 1 := by decide +kernel

/-- V-F23: the exponent is not reduced. -/
theorem test_fexp_exponent_not_reduced : outF (perform 0x15123000 (putF 2 3 (putF 3 (Config.p + 1)))) 1 = some 9 := by
  decide +kernel

/-- V-F27: a result of p or more. -/
theorem test_fexpm_result_above_p :
    outF (perform 0x16123400 (putF 2 2 (putF 3 255 (putF 4 (2 ^ 256 - 1))))) 1 = some (2 ^ 255) := by decide +kernel

/-- V-F30: modulus 1 gives 0. -/
theorem test_fexpm_modulus_one : outF (perform 0x16123400 (putF 2 5 (putF 4 1))) 1 = some 0 := by decide +kernel

/-- V-F33. -/
theorem test_fred_of_all_ones : outF (perform 0x17120000 (putF 2 (2 ^ 256 - 1))) 1 =
    some 6350874878119819312338956282401532410528162663560392320966563075034087161850 := by decide +kernel

/-! ### Curve unit -/

/-- V-C1. -/
theorem test_pgen : outP (perform 0x20100000 State.reset) 1 = some (.aff 1 2) := by decide +kernel

/-- V-C18. -/
theorem test_pset_reduces :
    outP (perform 0x21301000 (putF 0 (Config.p + 1) (putF 1 (2 * Config.p + 2)))) 3 = some (.aff 1 2) := by decide +kernel

/-- V-C19. -/
theorem test_pset_multiples_of_p_are_inf :
    outP (perform 0x21301000 (putF 0 Config.p (putF 1 (2 * Config.p)))) 3 = some .inf := by decide +kernel

/-- V-C21. -/
theorem test_px_of_2g : outF (perform 0x22120000 (putP 2 g2)) 1 =
    some 9576106256429682909732802513550057851239909425182015025367964331626916216831 := by decide +kernel

/-- V-C20. -/
theorem test_px_of_inf : outF (perform 0x22120000 (putF 1 9 (putP 2 .inf))) 1 = some 0 := by decide +kernel

/-- V-C21. -/
theorem test_py_of_2g : outF (perform 0x23220000 (putP 2 g2)) 2 =
    some 3762041743597375428823600987466094155844250131321505902823128844567717085184 := by decide +kernel

/-- V-C2. -/
theorem test_pdbl_of_g : outP (perform 0x24100000 (putP 0 (.aff 1 2))) 1 = some g2 := by decide +kernel

/-- V-C22. -/
theorem test_pdbl_of_y_zero : outP (perform 0x24100000 (putP 0 (.aff 5 0))) 1 = some .inf := by decide +kernel

/-- V-C3. -/
theorem test_padd_2g_g : outP (perform 0x25210000 (putP 1 g2 (putP 0 (.aff 1 2)))) 2 = some g3 := by decide +kernel

/-- V-C25. -/
theorem test_padd_same_x : outP (perform 0x25210000 (putP 1 (.aff 1 2) (putP 0 (.aff 1 5)))) 2 = some .inf := by decide +kernel

/-- V-C8. -/
theorem test_pmul_3g_by_two : outP (perform 0x26301000 (putF 1 2 (putP 0 g3))) 3 = some g6 := by decide +kernel

/-- V-C11: the scalar's most significant bit is tested in the last iteration. -/
theorem test_pmul_g_by_top_bit : outP (perform 0x26301000 (putF 1 (2 ^ 255) (putP 0 (.aff 1 2)))) 3 =
    some (.aff 6935290091353926637935200855954425017013417306271432889083210102622209235858
      11322869042926099071125571103506327944834980327453236762703863674929013866801) := by decide +kernel

/-! ### Bit-packing unit -/

/-- P3, word 7: V is below 2^241. -/
theorem test_bits_241 : outF (perform 0x307000F0 (putF 0 bufferV)) 7 = some bufferV := by decide +kernel

/-- P3, word 8: V is not below 2^240. -/
theorem test_bits_240_raises : outControl (perform 0x307000EF (putF 0 bufferV { State.reset with cmdCount := 8#32 })) =
    [0x00000202#32, 8#32, 8#32, 0x307000EF#32] := by decide +kernel

/-- V-B7. -/
theorem test_brev_16 : outF (perform 0x3191000F (putF 1 0xB4)) 9 = some 0x2D00 := by decide +kernel

/-- V-B9. -/
theorem test_brev_256 : outF (perform 0x319100FF (putF 1 1)) 9 = some (2 ^ 255) := by decide +kernel

/-- V-B11. -/
theorem test_wsplit_7 : outF (perform 0x32D00007 (putF 0 bufferV)) 13 = some 0x1C1D1E1F := by decide +kernel

/-- V-B12. -/
theorem test_wsplit_0 : outF (perform 0x32100000 (putF 0 bufferV)) 1 = some 0x00010203 := by decide +kernel

/-- V-B13. -/
theorem test_wins_3 : outF (perform 0x33E40003 (putF 4 0xDEADBEEF)) 14 = some 0xDEADBEEF00000000000000000000000000000000 := by
  decide +kernel

/-- V-B14. -/
theorem test_wins_wide_source_raises :
    outControl (perform 0x33E40003 (putF 4 (2 ^ 32))) = [0x00000202#32, 0#32, 0#32, 0x33E40003#32] := by decide +kernel

/-- V-B15. -/
theorem test_fpack_upper : outF (perform 0x34B00000 (putF 0 bufferV)) 11 = some 5233100606242806050955395731361295 := by
  decide +kernel

/-- V-B16. -/
theorem test_fpack_lower : outF (perform 0x34C00001 (putF 0 bufferV)) 12 = some 21356283574076891493948969979685445151 := by
  decide +kernel

/-! ### Errors and the port -/

/-- V-E4, P4 word 8. -/
theorem test_illegal_word_raises : outControl (perform 0x20800000 { State.reset with cmdCount := 8#32 }) =
    [0x00001002#32, 8#32, 8#32, 0x20800000#32] := by decide +kernel

/-- A state with an error latched at index 4, as P2 leaves it. -/
def failed : State := { State.reset with cmdCount := 4#32, err := some .divByZero, errPc := 4#32, errCmd := 0x14430000#32 }

/-- A state with a NOP in flight and two host moves before its retirement. -/
def flying (m : HostMove) : State := { State.reset with inFlight := some 0#32, latency := 2, inbox := [m, m] }

/-- A state with no command in flight and one host move to come. -/
def idle (m : HostMove) (s : State := State.reset) : State := { s with inbox := [m] }

/-- A 32-bit write to CMD, to CTRL, to word 3 of F2. -/
def toCmd (w : Word) : HostMove := .write .word 0x00C#12 w

/-- See `toCmd`. -/
def toCtrl (w : Word) : HostMove := .write .word 0x004#12 w

/-- See `toCmd`. -/
def toF2 (w : Word) : HostMove := .write .word 0x14C#12 w

/-- V-E5. -/
theorem test_cmd_write_dropped_under_error : step (idle (toCmd 0x00000000#32) failed) =
    .next (failed.record (.write .word 0x00C#12 0#32)) := by rfl

/-- V-E6. -/
theorem test_errclr : outControl (step (idle (toCtrl 2#32) failed)) = [0#32, 4#32, 0#32, 0#32] := by decide +kernel

/-- V-E7. -/
theorem test_cmd_overrun :
    outControl (step (flying (toCmd 0x01230000#32))) = [0x00001203#32, 0#32, 0#32, 0x01230000#32] := by decide +kernel

/-- V-E8. -/
theorem test_host_write_busy : outControl (step (flying (toF2 7#32))) = [0x00001303#32, 0#32, 0#32, 0#32] := by decide +kernel

/-- V-E9. -/
theorem test_srst_takes_precedence : outControl (step (idle (toCtrl 3#32) failed)) = [0#32, 0#32, 0#32, 0#32] := by
  decide +kernel

/-- V-H3: the last word of F2 stands at 0x15C. -/
theorem test_f_window_last_word : outF (step (idle (.write .word 0x15C#12 5#32))) 2 = some 5 := by decide +kernel

/-- What a read finds, on the state with the generator in P0 and INF in P1. -/
def found (off : Offset) : PortValue := (putP 1 .inf (putP 0 generator)).portRead (portReg off)

/-- V-H1, V-H2, V-H4, V-H5, V-H6. -/
theorem test_port_reads : found 0x000#12 = .value 0x46464543#32 ∧ found 0x008#12 = .value 0#32 ∧
    found 0x438#12 = .value 0#32 ∧ found 0x43C#12 = .value 2#32 ∧ found 0x01C#12 = .value 2#32 ∧
    found 0x00C#12 = .value 0#32 := by decide +kernel

/-- V-H7. -/
theorem test_p_window_write_ignored : step (idle (.write .word 0x400#12 7#32)) =
    .next (State.reset.record (.write .word 0x400#12 7#32)) := by rfl

/-! ### The assembler (R61, R62) -/

/-- V-D5, and case, blanks, hexadecimal and a comment. -/
theorem test_assemble_lines : assembleLine "FADD F1, F2, F3" = some [0x10123000#32] ∧
    assembleLine "  ldi f3,0x1234 ; a comment" = some [0x02301234#32] ∧
    assembleLine "BITS F0, F1, 256" = some [0x300100FF#32] := by decide +kernel

/-- An operand out of range is refused; the expansion of PINF; FNEG requires Ft other than Fa. -/
theorem test_assemble_ranges : assembleLine "BITS F0, F1, 257" = none ∧ assembleLine "PGEN P8" = none ∧
    assembleLine "PINF P3, F0" = some [0x02000000#32, 0x21300000#32] ∧ assembleLine "FNEG F1, F2, F2" = none := by
  decide +kernel

/-! ### Witnesses: states and operands that meet the hypotheses of the statements -/

theorem test_meets_DecodeEncodeRoundTrip : (Instr.bits 15 0 256).WellFormed := by decide

theorem test_meets_EncodeDecodeRoundTrip : decode 0x3201FF00#32 ≠ .ok .nop ∧ decode 0x320F0007#32 = .ok (.wsplit 0 15 7) := by
  decide

theorem test_moves_to_come (m : HostMove) (s : State) : (idle m s).inbox = m :: [] ∧ (flying m).inbox = m :: [m] := ⟨rfl, rfl⟩

/-- A word that is due because no host move remains, and one that is due because its latency is over. -/
def dueBy (latency : Nat) (inbox : List HostMove) : State :=
  { State.reset with inFlight := some 0x01230000#32, latency := latency, inbox := inbox }

theorem test_meets_StepRunsDecodedCommand :
    (dueBy 7 []).inbox = [] ∧ (dueBy 0 [.hardReset]).latency = 0 ∧ (dueBy 7 []).inFlight = some 0x01230000#32 ∧
      decode 0x01230000#32 = .ok (.mov 2 3) := by decide

/-- V-D7: PGEN with D = 8. -/
theorem test_meets_IllegalWordRaisesIllegalCommand : (State.reset.offer 0x20800000#32).inFlight = some 0x20800000#32 ∧
    (State.reset.offer 0x20800000#32).inbox = [] ∧ ∀ o : Op, 0x20800000#32 &&& o.mask ≠ o.pattern := by
  refine ⟨rfl, rfl, fun o => ?_⟩
  cases o <;> decide

theorem test_meets_CommandRetiresOrRaisesOneError : (State.reset.offer 0x13123000#32).inFlight = some 0x13123000#32 := rfl

theorem test_meets_AcceptedCommandEndsInBoundedSteps : (flying (toCmd 0#32)).busy = true := rfl

theorem test_meets_HostMoveAndRetirementInEitherOrder :
    (flying .hardReset).inFlight = some 0#32 ∧ (flying .hardReset).inbox = .hardReset :: [.hardReset] := ⟨rfl, rfl⟩

/-- The state with a command in flight; which one does not matter to the meanings. -/
def ready (s : State) : State := s.offer 0x13123000#32

theorem test_ready (s : State) : (ready s).inFlight = some 0x13123000#32 := rfl

/-- The divisors 2, p, 0 and 2p. -/
theorem test_meets_FdivMultipliesByPowerOrRaises : ¬ Config.p ∣ (ready (putF 3 2)).natF 3 ∧
    Config.p ∣ (ready (putF 3 Config.p)).natF 3 ∧ Config.p ∣ (ready State.reset).natF 3 ∧
    Config.p ∣ (ready (putF 3 (2 * Config.p))).natF 3 := by decide +kernel

/-- The operands p - 1, p + 1 and p. -/
theorem test_meets_FinvGivesPowerOrRaises : ¬ Config.p ∣ (ready (putF 3 (Config.p - 1))).natF 3 ∧
    ¬ Config.p ∣ (ready (putF 3 (Config.p + 1))).natF 3 ∧ Config.p ∣ (ready (putF 3 Config.p)).natF 3 := by decide +kernel

theorem test_meets_FexpmGivesPowerModOverride : State.reset.natF 4 = 0 ∧ (putF 4 1).natF 4 ≠ 0 := by decide +kernel

theorem test_meets_FinvThenFmulGivesOne : (1 : FIdx) ≠ 0 ∧ ¬ Config.p ∣ (putF 0 7).natF 0 := by decide +kernel

theorem test_meets_FdivThenFmulGivesDividend : (1 : FIdx) ≠ 3 ∧ ¬ Config.p ∣ (putF 2 5 (putF 3 3)).natF 3 := by decide +kernel

/-- V-F4 changes F1 from 0 to p - 1. -/
theorem test_meets_FieldAndPointResultsAreBelowP : outF (exec (.fsub 1 2 3) (putF 3 1)) 1 = some (Config.p - 1) ∧
    (putF 3 1).natF 1 ≠ Config.p - 1 ∧ destOf (.fsub 1 2 3) = .f 1 ∧
    Op.fsub ∉ [Op.mov, Op.ldi, Op.bits, Op.brev, Op.wsplit, Op.wins] ∧ (putF 3 1).PointsStored := by decide +kernel

theorem test_meets_PsetStoresReducedPair : (Config.p ∣ (putF 0 Config.p).natF 0 ∧ Config.p ∣ (putF 0 Config.p).natF 1) ∧
    ¬ (Config.p ∣ (putF 1 1).natF 0 ∧ Config.p ∣ (putF 1 1).natF 1) := by decide +kernel

theorem test_meets_PxReadsXCoordinate : ((putP 2 .inf).readP 2).inf = true ∧ ((putP 2 g2).readP 2).inf = false := by
  decide +kernel

theorem test_meets_PyReadsYCoordinate : ((putP 7 .inf).readP 7).inf = true ∧ ((putP 7 g2).readP 7).inf = false := by
  decide +kernel

/-- INF, y = 0, y = 1 and y = p - 1. -/
theorem test_meets_PdblGivesTangentPoint : (putP 0 .inf).pointP 0 = .inf ∧ (putP 0 (.aff 5 0)).pointP 0 = .aff 5 0 ∧
    (putP 0 (.aff 0 1)).pointP 0 = .aff 0 1 ∧ (putP 0 (.aff 0 (Config.p - 1))).pointP 0 = .aff 0 (Config.p - 1) := by
  decide +kernel

/-- The state with two points in P1 and P2. -/
def pair (q r : Point) : State := putP 1 q (putP 2 r)

theorem test_meets_PaddGivesChordPoint : (pair .inf g2).pointP 1 = .inf ∧ (pair g2 .inf).pointP 2 = .inf ∧
    (pair g2 g2).pointP 1 = (pair g2 g2).pointP 2 ∧
    ((pair (.aff 1 2) (.aff 1 5)).pointP 1 = .aff 1 2 ∧ (pair (.aff 1 2) (.aff 1 5)).pointP 2 = .aff 1 5) ∧
    ((pair (.aff 0 1) (.aff (Config.p - 1) 2)).pointP 1 = .aff 0 1 ∧
      (pair (.aff 0 1) (.aff (Config.p - 1) 2)).pointP 2 = .aff (Config.p - 1) 2) := by decide +kernel

theorem test_meets_GroupLawIdentities : g2.Canonical ∧ g3.Canonical ∧ g2 ≠ g3 := by unfold g2 g3; decide +kernel

theorem test_meets_EvenScalarMultipliesDoubledPoint : 2 ^ 255 - 1 < 2 ^ 255 := by decide +kernel

/-- The state whose eight point registers hold G, with an on-curve pair in F0 and F1. -/
def allG : State := putF 1 2 (putF 0 1 { State.reset with p := Vector.replicate 8 generator.toPReg })

theorem test_meets_CommandsKeepPointsOnCurve_points (j : PIdx) : (allG.pointP j).OnCurve := by
  have h : allG.pointP j = generator := by revert j; decide +kernel
  rw [h, generator]
  decide +kernel

theorem test_meets_CommandsKeepPointsOnCurve :
    allG.natF 1 ^ 2 % Config.p = (allG.natF 0 ^ 3 + Config.curveB) % Config.p ∧
      outP (exec (.pset 3 0 1) allG) 3 = some generator := by decide +kernel

/-- Width 256 with all ones, width 255 with its first value out of range, width 1. -/
theorem test_meets_BitsCopiesOrRaises : WidthOk 256 ∧ (ready (putF 1 (2 ^ 256 - 1))).natF 1 < 2 ^ 256 ∧
    WidthOk 255 ∧ 2 ^ 255 ≤ (ready (putF 1 (2 ^ 255))).natF 1 ∧ WidthOk 1 ∧ (ready (putF 1 1)).natF 1 < 2 ^ 1 := by decide +kernel

theorem test_meets_BrevReversesBitsOrRaises : WidthOk 256 ∧ (ready (putF 1 1)).natF 1 < 2 ^ 256 ∧
    WidthOk 4 ∧ 2 ^ 4 ≤ (ready (putF 1 16)).natF 1 ∧ (ready (putF 1 15)).natF 1 < 2 ^ 4 := by decide +kernel

theorem test_meets_BrevTwiceGivesSource : WidthOk 8 ∧ (putF 1 0xB4).natF 1 < 2 ^ 8 := by decide +kernel

theorem test_meets_PackBitsInvertsIntToBits : 2 ^ 256 - 1 < 2 ^ 256 ∧ packBits (bitSeq 8 0xB4) = 0xB4 := by decide +kernel

theorem test_meets_WsplitExtractsWord : WordIndexOk 0 ∧ WordIndexOk 7 := by decide

theorem test_meets_WinsInsertsWordOrRaises : WordIndexOk 0 ∧ WordIndexOk 7 ∧
    (ready (putF 4 (2 ^ 32 - 1))).natF 4 < 2 ^ 32 ∧ 2 ^ 32 ≤ (ready (putF 4 (2 ^ 32))).natF 4 := by decide +kernel

theorem test_meets_FpackGivesHalf : HalfOk 0 ∧ HalfOk 1 := by decide

theorem test_meets_WsplitInvertsFpack : HalfOk 1 ∧ 3 < 4 := by decide

/-- Bytes 0 and 31 of V (R42). -/
theorem test_meets_BytesLieBigEndianInWords : byteOf (BitVec.ofNat 256 bufferV) 31 = 31#8 ∧
    byteOf (BitVec.ofNat 256 bufferV) 0 = 0#8 ∧ 31 < 32 := by decide +kernel

theorem test_meets_PseudoFnegAndPcopyMeanWhatTheyName : (Pseudo.fneg 1 2 1).allowed = true ∧ ((putP 0 g2).readP 0).Stored ∧
    ((putP 0 .inf).readP 0).Stored := by decide +kernel

/-- Idle, under an error, and in flight. -/
theorem test_meets_CmdWriteAcceptedDroppedOrOverrun :
    (idle (toCmd 0#32)).dueCommand = none ∧ (idle (toCmd 0#32)).busy = false ∧ (idle (toCmd 0#32)).err = none ∧
      (idle (toCmd 0#32) failed).dueCommand = none ∧ (idle (toCmd 0#32) failed).err ≠ none ∧
      (flying (toCmd 0#32)).dueCommand = none ∧ (flying (toCmd 0#32)).busy = true := by decide

/-- The first and the last word of the window, idle and in flight. -/
theorem test_meets_FWindowWriteReplacesOneWord : (0x100#12).toNat = 0x100 + 0x20 * (0 : FIdx).val + 4 * (0 : Fin 8).val ∧
    (0x2FC#12).toNat = 0x100 + 0x20 * (15 : FIdx).val + 4 * (7 : Fin 8).val ∧
    (idle (.write .word 0x2FC#12 1#32)).dueCommand = none ∧ (flying (.write .word 0x2FC#12 1#32)).dueCommand = none := by
  decide

/-- A narrow write, a misaligned one, writes to the words beside those the port takes, all reserved bits of CTRL. -/
theorem test_meets_OtherWritesAreIgnored : Width.narrow ≠ Width.word ∧ (0x00D#12).toNat % 4 ≠ 0 ∧
    ((0x300#12 : Offset) ≠ 0x004#12 ∧ (0x300#12 : Offset) ≠ 0x00C#12 ∧
      ¬ (0x100 ≤ (0x300#12).toNat ∧ (0x300#12).toNat < 0x300)) ∧
    ((0x0FC#12 : Offset) ≠ 0x004#12 ∧ (0x0FC#12 : Offset) ≠ 0x00C#12 ∧
      ¬ (0x100 ≤ (0x0FC#12).toNat ∧ (0x0FC#12).toNat < 0x300)) ∧
    ((0xFFFFFFFC#32).getLsbD 0 = false ∧ (0xFFFFFFFC#32).getLsbD 1 = false) := by decide

theorem test_meets_ReadsHaveNoSideEffect : (idle (.read .word 0x020#12)).dueCommand = none ∧
    (flying (.read .wide 0x100#12)).dueCommand = none ∧ Width.wide ≠ Width.word ∧ (0x1FE#12).toNat % 4 ≠ 0 ∧
    0x020 ≤ (0x020#12).toNat ∧ (0x0FC#12).toNat < 0x100 ∧ 0x300 ≤ (0x300#12).toNat ∧ (0x3FC#12).toNat < 0x400 ∧
    0x600 ≤ (0x600#12).toNat := by decide

theorem test_meets_ControlReadsReturnRegisters : (putP 1 .inf).busy = false ∧ ((putP 1 .inf).readP 1).inf = true := by
  decide +kernel

theorem test_meets_StatusWordFields : State.reset.err = none ∧ failed.err = some .divByZero ∧
    failed.statusWord = 0x00000102#32 := by decide

/-- The ends of the F window, of x and of y in the P window. -/
theorem test_meets_WindowReadsReturnRegisterWords : State.reset.busy = false ∧
    (0x2FC#12).toNat = 0x100 + 0x20 * (15 : FIdx).val + 4 * (7 : Fin 8).val ∧
    (0x5DC#12).toNat = 0x400 + 0x40 * (7 : PIdx).val + 4 * (7 : Fin 8).val ∧
    (0x5FC#12).toNat = 0x400 + 0x40 * (7 : PIdx).val + 0x20 + 4 * (7 : Fin 8).val := by decide

theorem test_meets_ErrclrClearsLatch : (2#32).getLsbD 0 = false ∧ (2#32).getLsbD 1 = true ∧ failed.err ≠ none ∧
    State.reset.err = none := by decide

/-- Nothing in flight, a PMUL in flight, an illegal word in flight. -/
theorem test_meets_SoftResetKeepsRegisters : (3#32).getLsbD 0 = true ∧ failed.inFlight = none ∧
    (State.reset.offer 0x2601F000#32).inFlight = some 0x2601F000#32 ∧ decode 0x2601F000#32 = .ok (.pmul 0 1 15) ∧
    decode 0x03000000#32 = .error .reservedOpcode := by decide

theorem test_meets_FirstCommandAfterResetHasIndexZero : failed.softReset.err = none ∧ failed.softReset.cmdCount = 0#32 ∧
    failed.hardReset.inFlight = none := ⟨rfl, rfl, rfl⟩

/-- V-E6. -/
theorem test_meets_ErrClearedOnlyByErrclrOrReset :
    step (idle (toCtrl 2#32) failed) = .next (failed.clearError.record (.write .word 0x004#12 2#32)) ∧
    failed.err ≠ none ∧ failed.clearError.err = none := by refine ⟨rfl, ?_, rfl⟩; decide

/-- A retirement, an error entry and a soft reset. -/
theorem test_meets_CmdcountCountsRetirements :
    outControl (step (failed.offer 0x00000000#32)) = [0x00000102#32, 5#32, 4#32, 0x14430000#32] ∧
      outControl (perform 0x14430000 State.reset) = [0x00000102#32, 0#32, 0#32, 0x14430000#32] ∧
      outControl (step (idle (toCtrl 1#32) { State.reset with cmdCount := 5#32 })) = [0#32, 0#32, 0#32, 0#32] := by
  decide +kernel

theorem test_meets_OnlyPointCommandsWritePRegisters : Op.px ∉ [Op.pgen, Op.pset, Op.pdbl, Op.padd, Op.pmul] ∧
    exec (.px 1 2) State.reset = .next (State.reset.finishF 1 0) := by refine ⟨by decide, rfl⟩

/-- A state that no reset has made: an error latched and a point stored. -/
theorem test_meets_EveryStepKeepsInv : (putP 3 g2 failed).Inv ∧
    outP (step (idle (.write .word 0x100#12 1#32) (putP 3 g2 failed))) 3 = some g2 := by decide +kernel

/-! ### The end of a run (R19) -/

/-- A host that wrote its last command, polled STATUS until BUSY = 0, and reads CMDCOUNT next; `polls` is what it has polled. -/
def polled (polls : List Word) : State :=
  { State.reset with
    cmdCount := 1#32
    history := .write .word 0x00C#12 0#32 :: polls.map (.read .word 0x008#12)
    inbox := [.read .word 0x010#12] }

/-- The poll that saw BUSY = 1 does not end the run, the one that saw BUSY = 0 does, a command still to come undoes it. -/
theorem test_run_over : (polled [1#32]).runOver = false ∧ (polled [1#32, 0#32]).runOver = true ∧
    ({ polled [1#32, 0#32] with inbox := [toCmd 0#32] } : State).runOver = false ∧
    State.reset.runOver = false := by decide

/-- What the answer has observed. -/
def outObservation (o : Out) : List (Offset × Word) :=
  match o with
  | .next t => t.observation
  | .fault _ | .refused _ => []

/-- The polls are not observed, the read of CMDCOUNT is, with its offset. -/
theorem test_observation : outObservation (step (polled [1#32, 0#32])) = [(0x010#12, 1#32)] ∧
    (polled [1#32, 0#32]).observation = [] := by decide +kernel

theorem test_meets_RunOverStaysIdleAndReadsAreObserved : (polled [1#32, 0#32]).RunOver ∧ (polled [1#32, 0#32]).busy = false ∧
    (polled [1#32, 0#32]).inbox = .read .word 0x010#12 :: [] ∧ (0x010#12).toNat % 4 = 0 ∧
    (portReg 0x010#12).observed = true := by decide

end Sys2Proof.Tests
end

section
/-! The step that runs a command (R18, R59): when a word is due, and what performing it is. -/

namespace Sys2Proof.Laws

open Sys2Proof.Machine

/-- The word in flight is due once its latency is over or no host move is left (log entry 5). -/
theorem dueCommand_of_ready {s : State} (h : s.latency = 0 ∨ s.inbox = []) : s.dueCommand = s.inFlight := if_pos h

theorem dueCommand_of_idle {s : State} (h : s.busy = false) : s.dueCommand = none := by
  have hnone : s.inFlight = none := Option.isNone_iff_eq_none.mp (Option.isSome_eq_false_iff.mp h)
  rw [State.dueCommand, hnone, ite_self]

theorem runCommand_of_decode {w : Word} {i : Instr} (h : decode w = .ok i) (s : State) : runCommand w s = exec i s := by
  simp [runCommand, h]

/-- Settles O5: the word is due, so the step performs it, and performing it is `exec` of what it decodes to. -/
theorem stepRunsDecodedCommand : Obligations.StepRunsDecodedCommand := by
  intro s w i hw hready hdec
  have hdue : s.dueCommand = some w := (dueCommand_of_ready hready).trans hw
  rw [step_of_due hdue, runCommand_of_decode hdec]

end Sys2Proof.Laws
end

section
/-! The end of a run (R19): what the host's next move does to it. The one idea: the run can only come to be over by a HostRead
of STATUS that returns BUSY = 0, and bit 0 of STATUS is BUSY; from then on no move writes CMD, so BUSY stays 0. -/

namespace Sys2Proof.Laws

open Sys2Proof.Machine

/-! ### The host's next move -/

/-- The state in which the host's next move is performed: that move is taken from the list, `rest` is still to come. -/
def takeMove (s : State) (rest : List HostMove) : State := { s with inbox := rest, latency := s.latency - 1 }

@[simp] theorem takeMove_inbox (s : State) (rest : List HostMove) : (takeMove s rest).inbox = rest := rfl
@[simp] theorem takeMove_history (s : State) (rest : List HostMove) : (takeMove s rest).history = s.history := rfl
@[simp] theorem takeMove_busy (s : State) (rest : List HostMove) : (takeMove s rest).busy = s.busy := rfl

theorem hostMove_of_nil {s : State} (h : s.inbox = []) : s.hostMove = s := by
  simp [State.hostMove, h]

theorem hostMove_of_cons {s : State} {m : HostMove} {rest : List HostMove} (h : s.inbox = m :: rest) :
    s.hostMove = (takeMove s rest).perform m := by
  simp [State.hostMove, h, takeMove]

/-- A host read as the host's next move changes nothing in the block (R44). -/
theorem hostRead_takeMove_spec (s : State) (rest : List HostMove) (width : Width) (off : Offset) :
    ∃ v, Replied width off v s ((takeMove s rest).hostRead width off) := by
  obtain ⟨v, ⟨hf, hp, hl⟩, ⟨he, hpc, hcmd⟩, hcount, hfl, hhist⟩ := hostRead_spec (takeMove s rest) width off
  exact ⟨v, ⟨hf, hp, hl⟩, ⟨he, hpc, hcmd⟩, hcount, hfl, hhist⟩

/-! ### BUSY and the host's moves -/

/-- Bit 0 of STATUS is BUSY (R28). -/
theorem statusWord_getLsbD_zero (s : State) : s.statusWord.getLsbD 0 = s.busy := by
  simp only [State.statusWord, BitVec.getLsbD_append]
  simp

theorem softReset_busy (s : State) : s.softReset.busy = false := by
  unfold State.softReset
  split <;> rfl

/-- Only a write to CMD takes a command into flight (R29). -/
theorem portWrite_busy_of_idle {s : State} (h : s.busy = false) (v : Word) {r : PortReg} (hr : r ≠ .cmd) :
    (s.portWrite v r).busy = false := by
  cases r with
  | cmd => exact absurd rfl hr
  | ctrl =>
    simp only [State.portWrite, State.writeCtrl]
    split_ifs
    · exact softReset_busy s
    · rwa [State.busy, State.clearError_inFlight]
    · exact h
  | fWord i k => rw [State.portWrite, State.writeFWord, h]; exact h
  | _ => exact h

/-- While BUSY = 0, a host move that does not write CMD leaves BUSY = 0. -/
theorem perform_busy_of_idle {s : State} {m : HostMove} (h : s.busy = false) (hm : m.offersCommand = false) :
    (s.perform m).busy = false := by
  cases m with
  | read width off =>
    obtain ⟨v, hr⟩ := hostRead_spec s width off
    rwa [State.perform, State.busy, hr.inFlight]
  | write width off v =>
    change (s.hostWrite width off v).busy = false
    unfold State.hostWrite
    split
    case isTrue hacc => exact portWrite_busy_of_idle h v (by simpa [HostMove.offersCommand, isCmdWrite, hacc] using hm)
    case isFalse => exact h
  | hardReset => rfl

/-- A HostRead of STATUS that returns BUSY = 0 is made while BUSY = 0. -/
theorem busy_of_seesIdle {s : State} {m : HostMove} {e : PortEvent} (h : (s.perform m).history = s.history ++ [e])
    (he : e.seesIdle = true) : s.busy = false := by
  cases m with
  | read width off =>
    obtain ⟨v, hr, hv⟩ := reply_spec s width off (if accepted width off then s.portRead (portReg off) else .value 0#32)
    have hev : e = .read width off v := by simpa using h.symm.trans hr.history
    subst hev
    simp only [PortEvent.seesIdle, Bool.and_eq_true, beq_iff_eq, Bool.not_eq_true'] at he
    obtain ⟨⟨hacc, hoff⟩, hbit⟩ := he
    rw [← statusWord_getLsbD_zero, ← hv s.statusWord (by rw [if_pos hacc, hoff, State.portRead]), hbit]
  | write width off v =>
    have hev : e = .write width off v := by
      simpa [State.perform, (hostWrite_host s width off v).2] using h.symm
    subst hev
    cases he
  | hardReset =>
    have hev : e = .hardReset := by simpa [State.perform, State.hardReset] using h.symm
    subst hev
    cases he

/-! ### The end of the run -/

/-- When a run is over (R19). -/
theorem runOver_iff (s : State) : s.RunOver ↔
    (∀ m ∈ s.inbox, m.offersCommand = false) ∧ (sinceLastCommand s.history).any PortEvent.seesIdle = true := by
  simp [State.RunOver, State.runOver]

/-- The end of the run is read off the host's side alone. -/
theorem runOver_congr {s t : State} (h : t.inbox = s.inbox ∧ t.history = s.history) : t.RunOver ↔ s.RunOver := by
  rw [runOver_iff, runOver_iff, h.1, h.2]

/-- When the run is over after one more host move, which leaves the event `e`: the move and those to come do not write CMD, and
STATUS was seen idle before or by this move. -/
theorem runOver_perform_iff {s : State} {m : HostMove} {rest : List HostMove} {e : PortEvent}
    (hhist : ((takeMove s rest).perform m).history = s.history ++ [e]) (he : e.offersCommand = m.offersCommand) :
    ((takeMove s rest).perform m).RunOver ↔ (∀ m' ∈ rest, m'.offersCommand = false) ∧ m.offersCommand = false ∧
      ((sinceLastCommand s.history).any PortEvent.seesIdle = true ∨ e.seesIdle = true) := by
  rw [runOver_iff, (perform_host _ m).1, takeMove_inbox, hhist, sinceLastCommand_append, he]
  cases m.offersCommand <;> simp

/-- The host's move keeps that the run is over. -/
theorem runOver_hostMove {s : State} (h : s.RunOver) : s.hostMove.RunOver := by
  cases hin : s.inbox with
  | nil => rwa [hostMove_of_nil hin]
  | cons m rest =>
    obtain ⟨-, e, hhist, he⟩ := perform_host (takeMove s rest) m
    obtain ⟨hcmd, hidle⟩ := (runOver_iff s).mp h
    rw [hin, List.forall_mem_cons] at hcmd
    rw [hostMove_of_cons hin, runOver_perform_iff hhist he]
    exact ⟨hcmd.2, hcmd.1, .inl hidle⟩

/-- If BUSY = 0 once the run is over, then it is so after the host's move: a run that was over before had BUSY = 0 already, and one
that this move ended was seen idle by it. -/
theorem hostMove_busy_of_runOver {s : State} (h : s.RunOver → s.busy = false) (ht : s.hostMove.RunOver) :
    s.hostMove.busy = false := by
  cases hin : s.inbox with
  | nil =>
    rw [hostMove_of_nil hin] at ht ⊢
    exact h ht
  | cons m rest =>
    obtain ⟨-, e, hhist, he⟩ := perform_host (takeMove s rest) m
    rw [hostMove_of_cons hin] at ht ⊢
    obtain ⟨hrest, hm, hidle⟩ := (runOver_perform_iff hhist he).mp ht
    have hbusy : s.busy = false := by
      rcases hidle with hbefore | hnow
      · exact h ((runOver_iff s).mpr ⟨by rw [hin]; exact List.forall_mem_cons.mpr ⟨hm, hrest⟩, hbefore⟩)
      · exact busy_of_seesIdle (s := takeMove s rest) hhist hnow
    exact perform_busy_of_idle hbusy hm

/-- A read of an observed register, once the run is over, is the next value observed (R19). -/
theorem observation_of_read {s t : State} {off : Offset} {v : Word} (h : s.RunOver)
    (hhist : t.history = s.history ++ [.read .word off v]) (halign : off.toNat % 4 = 0)
    (hobs : (portReg off).observed = true) : t.observation = s.observation ++ [(off, v)] := by
  have hacc : accepted .word off = true := by simp [accepted, halign]
  rw [State.observation, State.observation, hhist, afterRun_append rfl ((runOver_iff s).mp h).2, List.filterMap_append]
  simp [PortEvent.observed, hacc, hobs]

/-- Settles O60: a performed command leaves the host's side alone and BUSY clear; a host move keeps the end of the run and
BUSY = 0; an idle block's next step is the host's read, which adds one event to the record. -/
theorem runOverStaysIdleAndReadsAreObserved : Obligations.RunOverStaysIdleAndReadsAreObserved := by
  intro s t hstep
  refine ⟨fun hover => ?_, fun hidle hover => ?_, fun off rest hover hbusy hin halign hobs => ?_⟩
  · obtain ⟨w, -, hrun⟩ | ⟨-, rfl⟩ := step_cases hstep
    · exact (runOver_congr (runCommand_host hrun)).mpr hover
    · exact runOver_hostMove hover
  · obtain ⟨w, -, hrun⟩ | ⟨-, rfl⟩ := step_cases hstep
    · obtain ⟨t', ht', hb⟩ := runCommand_idle w s
      cases hrun.symm.trans ht'
      exact hb
    · exact hostMove_busy_of_runOver hidle hover
  · rw [step_of_not_due (dueCommand_of_idle hbusy), hostMove_of_cons hin] at hstep
    cases hstep
    obtain ⟨v, hv⟩ := hostRead_takeMove_spec s rest .word off
    exact ⟨v, hv, observation_of_read hover hv.history halign hobs⟩

end Sys2Proof.Laws
end

section
/-! What performing a word can do (R18, R104, R109), said once: it retires with no destination, with an F or with a P
destination, or it raises the one error its command may raise. Every statement about all commands is read off these cases. -/

namespace Sys2Proof.Laws

open Sys2Proof.Machine

/-- The ways in which the command `i`, performed in `s`, can end. -/
inductive Ends (i : Instr) (s : State) : State → Prop
  | retire (hdest : destOf i = .none) : Ends i s s.retire
  | writeF {d : FIdx} (hdest : destOf i = .f d) (v : Nat) : Ends i s (s.finishF d v)
  | writeP {d : PIdx} (hdest : destOf i = .p d) (q : Point) (l : Ladder)
      (hkeep : s.PointsStored → q.Canonical ∧ l.result.Stored ∧ l.addend.Stored) :
      Ends i s ({ s with ladder := l }.finishP d q.toPReg)
  | divByZero (hop : i.op ∈ [Op.fdiv, Op.finv]) : Ends i s (s.raise .divByZero)
  | encodingRange (hop : i.op ∈ [Op.bits, Op.brev, Op.wins]) : Ends i s (s.raise .encodingRange)

/-- The value of a stored P register is a point value. -/
theorem pointP_canonical {s : State} (h : s.PointsStored) (a : PIdx) : (s.pointP a).Canonical :=
  toPoint_canonical (h.1 a)

/-- Both working points of the ladder keep what `pmul_keeps` says of its result (R78). -/
theorem ladderOf_keeps {C : Point → Prop} (hinf : C .inf) (hdbl : ∀ q, C q → C (pdbl q))
    (hadd : ∀ q r, C q → C r → C (padd q r)) {q : Point} (hq : C q) (n : Nat) :
    C (ladderOf q n).result ∧ C (ladderOf q n).addend :=
  ladderRun_keeps hdbl hadd n _ ⟨.inf, q, 0⟩ hinf hq

theorem toLadder_stored {l : LadderVals} (h : l.result.Canonical ∧ l.addend.Canonical) :
    l.toLadder.result.Stored ∧ l.toLadder.addend.Stored :=
  ⟨toPReg_stored h.1, toPReg_stored h.2⟩

/-- PMUL leaves the ladder's working points stored as R22 says. -/
theorem ladderAfter_stored {q : Point} (hq : q.Canonical) (n : Nat) {old : Ladder}
    (hold : old.result.Stored ∧ old.addend.Stored) :
    (ladderAfter q n old).result.Stored ∧ (ladderAfter q n old).addend.Stored := by
  unfold ladderAfter
  split
  · exact hold
  · exact toLadder_stored (ladderOf_keeps (C := Point.Canonical) trivial (fun q _ => pdbl_canonical q)
      (fun _ _ => padd_canonical) hq n)

theorem pairPoint_canonical {x y : Nat} (hx : x < Config.p) (hy : y < Config.p) : (pairPoint x y).Canonical := by
  unfold pairPoint
  split
  · trivial
  · exact ⟨hx, hy⟩

/-- A command that checks its operand first ends in one of two ways. -/
theorem next_ite_ends {i : Instr} {s t u : State} {c : Prop} [Decidable c] (ht : Ends i s t) (hu : Ends i s u) :
    ∃ v, (if c then .next t else .next u : Out) = .next v ∧ Ends i s v := by
  split
  · exact ⟨t, rfl, ht⟩
  · exact ⟨u, rfl, hu⟩

/-- Every command ends in one of the ways of `Ends`. -/
theorem exec_ends (i : Instr) (s : State) : ∃ t, exec i s = .next t ∧ Ends i s t := by
  cases i with
  | nop => exact ⟨_, rfl, .retire rfl⟩
  | fdiv | finv => exact next_ite_ends (.divByZero (by simp [Instr.op])) (.writeF rfl _)
  | bits | brev | wins => exact next_ite_ends (.encodingRange (by simp [Instr.op])) (.writeF rfl _)
  | pgen d => exact ⟨_, rfl, .writeP rfl _ s.ladder fun h => ⟨by decide, h.2⟩⟩
  | pset d a b => exact ⟨_, rfl, .writeP rfl _ s.ladder fun h => ⟨pairPoint_canonical (red_lt _) (red_lt _), h.2⟩⟩
  | pdbl d a => exact ⟨_, rfl, .writeP rfl _ s.ladder fun h => ⟨pdbl_canonical _, h.2⟩⟩
  | padd d a b =>
    exact ⟨_, rfl, .writeP rfl _ s.ladder fun h => ⟨padd_canonical (pointP_canonical h a) (pointP_canonical h b), h.2⟩⟩
  | pmul d a b =>
    refine ⟨_, rfl, .writeP rfl _ _ fun h => ⟨?_, ladderAfter_stored (pointP_canonical h a) _ h.2⟩⟩
    exact pmul_keeps (C := Point.Canonical) trivial (fun q _ => pdbl_canonical q) (fun _ _ => padd_canonical)
      (pointP_canonical h a) _
  | _ => exact ⟨_, rfl, .writeF rfl _⟩

/-- The inversion of `exec`. -/
theorem ends_of_exec {i : Instr} {s t : State} (h : exec i s = .next t) : Ends i s t := by
  obtain ⟨t', ht', hends⟩ := exec_ends i s
  cases h.symm.trans ht'
  exact hends

/-- The inversion of `runCommand`: the word's command ends, or the word is illegal and raises ILLEGAL_COMMAND. -/
theorem runCommand_cases {w : Word} {s t : State} (h : runCommand w s = .next t) :
    (∃ i, decode w = .ok i ∧ Ends i s t) ∨ ∃ e, decode w = .error e ∧ t = s.raise .illegalCommand := by
  unfold runCommand at h
  split at h
  case h_1 i hdec => exact .inl ⟨i, hdec, ends_of_exec h⟩
  case h_2 e hdec =>
    cases h
    exact .inr ⟨e, hdec, rfl⟩

/-! ### One outcome (R109) -/

/-- Retiring with an F destination writes that register only, whatever the value. -/
theorem finishF_frame (s : State) (d : FIdx) (v : Nat) : OnlyF d s (s.finishF d v) :=
  ⟨fun _ hi => State.readF_writeF_of_ne s _ hi, fun _ => rfl, rfl⟩

/-- Retiring with a P destination writes that register only, whatever becomes of the ladder. -/
theorem finishP_frame (s : State) (d : PIdx) (r : PReg) (l : Ladder) :
    OnlyP d s ({ s with ladder := l }.finishP d r) :=
  ⟨fun _ => rfl, fun _ hi => State.readP_writeP_of_ne { s with ladder := l } r hi⟩

/-- A command that ends without an error has retired and written at most its destination. -/
theorem ends_spec {i : Instr} {s t : State} {w : Word} (hw : s.inFlight = some w) (h : Ends i s t) :
    (Retired s t ∧ OnlyDest (destOf i) s t) ∨ (i.op ∈ [Op.fdiv, Op.finv] ∧ Raised .divByZero w s t) ∨
      (i.op ∈ [Op.bits, Op.brev, Op.wins] ∧ Raised .encodingRange w s t) := by
  cases h with
  | retire hdest =>
    rw [hdest]
    exact .inl ⟨⟨rfl, rfl, ⟨rfl, rfl, rfl⟩, ⟨rfl, rfl, rfl⟩⟩, ⟨fun _ => rfl, fun _ => rfl, rfl⟩⟩
  | writeF hdest v =>
    rw [hdest]
    exact .inl ⟨retired_writeF_retire s _ _, finishF_frame s _ v⟩
  | writeP hdest q l =>
    rw [hdest]
    exact .inl ⟨⟨rfl, rfl, ⟨rfl, rfl, rfl⟩, ⟨rfl, rfl, rfl⟩⟩, finishP_frame s _ _ l⟩
  | divByZero hop => exact .inr (.inl ⟨hop, raise_spec s _ hw⟩)
  | encodingRange hop => exact .inr (.inr ⟨hop, raise_spec s _ hw⟩)

/-- Settles O7: the cases of `Ends` one by one, and error entry for an illegal word. -/
theorem commandRetiresOrRaisesOneError : Obligations.CommandRetiresOrRaisesOneError := by
  intro s w hw
  obtain ⟨t, hrun, -⟩ := runCommand_idle w s
  refine ⟨t, hrun, ?_⟩
  obtain ⟨i, hdec, hends⟩ | ⟨e, hdec, rfl⟩ := runCommand_cases hrun
  · obtain ⟨hret, honly⟩ | ⟨hop, hraised⟩ | ⟨hop, hraised⟩ := ends_spec hw hends
    · exact .inl ⟨i, hdec, hret, honly⟩
    · exact .inr (.inl ⟨i, hdec, hop, hraised⟩)
    · exact .inr (.inr (.inl ⟨i, hdec, hop, hraised⟩))
  · exact .inr (.inr (.inr ⟨e, hdec, raise_spec s _ hw⟩))

/-- A performed word retires, or raises a cause that is not the reserved one. -/
theorem runCommand_retired_or_raised {w : Word} {s t : State} (hw : s.inFlight = some w) (h : runCommand w s = .next t) :
    Retired s t ∨ ∃ c, Raised c w s t ∧ c ≠ .degenerateSample := by
  obtain ⟨t', ht', hout⟩ := commandRetiresOrRaisesOneError s w hw
  cases h.symm.trans ht'
  obtain ⟨-, -, hret, -⟩ | ⟨-, -, -, hraised⟩ | ⟨-, -, -, hraised⟩ | ⟨-, -, hraised⟩ := hout
  · exact .inl hret
  · exact .inr ⟨_, hraised, nofun⟩
  · exact .inr ⟨_, hraised, nofun⟩
  · exact .inr ⟨_, hraised, nofun⟩

/-! ### Which registers a command writes (R20, R22) -/

/-- The commands with a P destination. -/
theorem op_of_destOf_p {i : Instr} {d : PIdx} (h : destOf i = .p d) :
    i.op ∈ [Op.pgen, Op.pset, Op.pdbl, Op.padd, Op.pmul] := by
  cases i with
  | pgen | pset | pdbl | padd | pmul => simp [Instr.op]
  | _ => cases h

/-- Settles O56: of the ways a command can end only a P destination writes a P register or the ladder. -/
theorem onlyPointCommandsWritePRegisters : Obligations.OnlyPointCommandsWritePRegisters := by
  intro i s t hexec hop
  cases ends_of_exec hexec with
  | retire | writeF => exact ⟨fun _ => rfl, rfl⟩
  | writeP hdest => exact absurd (op_of_destOf_p hdest) hop
  | divByZero | encodingRange => exact ⟨fun j => State.readP_raise s _ j, State.raise_ladder s _⟩

/-- A command that retires with a result below p leaves its destination below p. -/
theorem natF_lt_of_finishF {s t : State} {d e : FIdx} {v : Nat} (h : (.next (s.finishF e v) : Out) = .next t)
    (hdest : Dest.f e = .f d) (hv : v < Config.p) : t.natF d < Config.p := by
  cases h
  cases hdest
  rwa [(finishF_spec s d (lt_trans hv p_lt_256)).value]

theorem xOut_lt {q : Point} (h : q.Canonical) : q.xOut < Config.p := by
  cases q with
  | inf => exact p_pos
  | aff x y => exact h.1

theorem yOut_lt {q : Point} (h : q.Canonical) : q.yOut < Config.p := by
  cases q with
  | inf => exact p_pos
  | aff x y => exact h.2

/-- The modulus FEXPM uses: p for 0, and then any other up to p. -/
theorem overrideModulus_bounds {m : Nat} (h : m ≤ Config.p) : 0 < overrideModulus m ∧ overrideModulus m ≤ Config.p := by
  unfold overrideModulus
  split
  · exact ⟨p_pos, le_rfl⟩
  · exact ⟨by omega, h⟩

/-- Settles O20: each of the other commands with an F destination writes a result of a field primitive, a coordinate of a point
value, or a number reduced mod p; FDIV and FINV may change nothing instead, by raising their error. -/
theorem fieldAndPointResultsAreBelowP : Obligations.FieldAndPointResultsAreBelowP := by
  intro i d s t hstored hexec hdest hop hmod hne
  cases i with
  | fadd => exact natF_lt_of_finishF hexec hdest (fadd_lt _ _)
  | fsub => exact natF_lt_of_finishF hexec hdest (fsub_lt _ _)
  | fmul => exact natF_lt_of_finishF hexec hdest (fmul_lt _ _)
  | fdiv =>
    simp only [exec, execFdiv] at hexec
    split at hexec
    · cases hexec
      exact absurd (State.readF_raise s _ d) hne
    · exact natF_lt_of_finishF hexec hdest (fdiv_lt _ _)
  | finv =>
    simp only [exec, execFinv] at hexec
    split at hexec
    · cases hexec
      exact absurd (State.readF_raise s _ d) hne
    · exact natF_lt_of_finishF hexec hdest (fpow_lt _ _)
  | fexp => exact natF_lt_of_finishF hexec hdest (fpow_lt _ _)
  | fexpm _ _ _ m =>
    obtain ⟨hpos, hle⟩ := overrideModulus_bounds (hmod _ _ _ m rfl)
    exact natF_lt_of_finishF hexec hdest (lt_of_lt_of_le (powMod_lt hpos _ _ _) hle)
  | fred => exact natF_lt_of_finishF hexec hdest (red_lt _)
  | px _ a => exact natF_lt_of_finishF hexec hdest (xOut_lt (pointP_canonical hstored a))
  | py _ a => exact natF_lt_of_finishF hexec hdest (yOut_lt (pointP_canonical hstored a))
  | fpack => exact natF_lt_of_finishF hexec hdest (Nat.mod_lt _ p_pos)
  | mov | ldi | bits | brev | wsplit | wins => exact absurd (by simp [Instr.op]) hop
  | nop | pgen | pset | pdbl | padd | pmul => cases hdest

end Sys2Proof.Laws
end

section
/-! What a host write can do (20_memory R37 to R45), said once, and the port's own statements: writes to CMD, writes that have no
effect, reads of the control registers, the fields of STATUS. -/

namespace Sys2Proof.Laws

open Sys2Proof.Machine

theorem accepted_iff {width : Width} {off : Offset} :
    accepted width off = true ↔ width = .word ∧ off.toNat % 4 = 0 := by
  simp [accepted]

/-- The ways in which a host write of `v` to the offset `off` can act on `s`. -/
inductive Written (width : Width) (off : Offset) (v : Word) (s : State) : State → Prop
  | ignored : Written width off v s s
  | command (hidle : s.busy = false) (hclear : s.err = none) (n k : Nat) :
      Written width off v s { s with inFlight := some v, latency := n, draws := k }
  | hostError (hbusy : s.busy = true) (c : ErrorCode) (hc : c = .cmdOverrun ∨ c = .hostWriteBusy) (w : Word) :
      Written width off v s (s.latchError c w)
  | fWord (hidle : s.busy = false) (i : FIdx) (r : Reg) : Written width off v s (s.writeF i r)
  | softReset (hwidth : width = .word) (hoff : off = 0x004#12) (hbit : v.getLsbD 0 = true) :
      Written width off v s s.softReset
  | clearError (hwidth : width = .word) (hoff : off = 0x004#12) (hbit : v.getLsbD 1 = true) :
      Written width off v s s.clearError

/-- Every host write acts in one of the ways of `Written`. -/
theorem hostWrite_written (s : State) (width : Width) (off : Offset) (v : Word) :
    Written width off v s (s.hostWrite width off v) := by
  unfold State.hostWrite
  split
  case isFalse => exact .ignored
  case isTrue hacc =>
    cases hreg : portReg off with
    | cmd =>
      simp only [State.portWrite, State.writeCmd]
      split_ifs with hbusy herr
      · exact .hostError hbusy _ (.inl rfl) _
      · exact .ignored
      · exact .command (eq_false_of_ne_true hbusy) (by simpa [State.errFlag] using herr) _ _
    | ctrl =>
      have hoff := off_of_portReg_ctrl hreg
      have hwidth := (accepted_iff.mp hacc).1
      simp only [State.portWrite, State.writeCtrl]
      split_ifs with hsrst hclr
      · exact .softReset hwidth hoff hsrst
      · exact .clearError hwidth hoff hclr
      · exact .ignored
    | fWord i k =>
      simp only [State.portWrite, State.writeFWord]
      split_ifs with hbusy
      · exact .hostError hbusy _ (.inr rfl) _
      · exact .fWord (eq_false_of_ne_true hbusy) _ _
    | _ => exact .ignored

/-! ### Writes to CMD (R29) -/

/-- The write to CMD stands at offset 0x00C. -/
theorem hostWrite_cmd (s : State) (w : Word) : s.hostWrite .word 0x00C#12 w = s.writeCmd w := rfl

theorem writeCmd_of_busy {s : State} (h : s.busy = true) (w : Word) : s.writeCmd w = s.latchError .cmdOverrun w := by
  simp [State.writeCmd, h]

theorem writeCmd_of_err {s : State} (h : s.busy = false) (herr : s.err ≠ none) (w : Word) : s.writeCmd w = s := by
  simp [State.writeCmd, h, State.errFlag, Option.isSome_iff_ne_none.mpr herr]

theorem writeCmd_of_ready {s : State} (h : s.busy = false) (herr : s.err = none) (w : Word) :
    s.writeCmd w = { s with inFlight := some w, latency := Config.latency s.draws, draws := s.draws + 1 } := by
  simp [State.writeCmd, h, State.errFlag, herr]

theorem latchError_sameRegs (s : State) (c : ErrorCode) (w : Word) : SameRegs s (s.latchError c w) :=
  ⟨fun _ => by simp [State.readF], fun _ => by simp [State.readP], by simp⟩

/-- A write to CMD, accepted or not, changes no register and not CMDCOUNT. -/
theorem writeCmd_frame (s : State) (w : Word) : SameRegs s (s.writeCmd w) ∧ (s.writeCmd w).cmdCount = s.cmdCount := by
  unfold State.writeCmd
  split_ifs
  · exact ⟨latchError_sameRegs s _ w, State.latchError_cmdCount s _ w⟩
  · exact ⟨⟨fun _ => rfl, fun _ => rfl, rfl⟩, rfl⟩
  · exact ⟨⟨fun _ => rfl, fun _ => rfl, rfl⟩, rfl⟩

theorem inFlight_of_idle {s : State} (h : s.busy = false) : s.inFlight = none :=
  Option.isNone_iff_eq_none.mp (Option.isSome_eq_false_iff.mp h)

/-- Settles O44: the step is the write to CMD, which BUSY and ERR decide between three outcomes. -/
theorem cmdWriteAcceptedDroppedOrOverrun : Obligations.CmdWriteAcceptedDroppedOrOverrun := by
  intro s w rest hin hdue
  have hbusy : (takeMove s rest).busy = s.busy := takeMove_busy s rest
  obtain ⟨hinbox, hhist⟩ := hostWrite_host (takeMove s rest) .word 0x00C#12 w
  obtain ⟨hregs, hcount⟩ := writeCmd_frame (takeMove s rest) w
  refine ⟨rfl, ((takeMove s rest).writeCmd w).record (.write .word 0x00C#12 w), ?_, hinbox, ?_,
    ⟨hregs.f, hregs.p, hregs.ladder⟩, hcount, fun hidle hclear => ?_, fun hidle herr => ?_, fun hb => ?_⟩
  · rw [step_of_not_due hdue, hostMove_of_cons hin, State.perform, hostWrite_cmd]
  · rw [State.record_history, ← hostWrite_cmd, hhist, takeMove_history]
  · rw [writeCmd_of_ready (hbusy.trans hidle) hclear]
    exact ⟨rfl, rfl, rfl, rfl⟩
  · rw [writeCmd_of_err (hbusy.trans hidle) herr]
    exact ⟨inFlight_of_idle hidle, rfl, rfl, rfl⟩
  · rw [writeCmd_of_busy (hbusy.trans hb)]
    obtain ⟨hfirst, hlater⟩ := latchError_spec .cmdOverrun w (takeMove s rest)
    refine ⟨State.latchError_inFlight _ _ _, hfirst, fun h => ?_⟩
    obtain ⟨herr, hpc, hcmd⟩ := hlater h
    exact ⟨herr, hpc, hcmd⟩

/-! ### Writes without effect (R37, R38, R44) -/

/-- CMD stands at one offset only. -/
theorem off_of_portReg_cmd {off : Offset} (h : portReg off = .cmd) : off = 0x00C#12 := by
  apply BitVec.eq_of_toNat_eq
  simp only [portReg] at h
  split_ifs at h
  · unfold Machine.controlAt at h; split_ifs at h; assumption
  · cases h
  · unfold pWordAt at h; split at h <;> cases h

/-- The words of the F registers stand in the F window only. -/
theorem range_of_portReg_fWord {off : Offset} {i : FIdx} {k : Fin 8} (h : portReg off = .fWord i k) :
    0x100 ≤ off.toNat ∧ off.toNat < 0x300 := by
  simp only [portReg] at h
  split_ifs at h with _ hrange
  · unfold Machine.controlAt at h; split_ifs at h
  · exact hrange
  · unfold pWordAt at h; split at h <;> cases h

/-- A word of the port other than CMD, CTRL and the F window ignores a write. -/
theorem portWrite_of_not_writable {s : State} {v : Word} {r : PortReg} (hcmd : r ≠ .cmd) (hctrl : r ≠ .ctrl)
    (hf : ∀ i k, r ≠ .fWord i k) : s.portWrite v r = s := by
  cases r with
  | cmd => exact absurd rfl hcmd
  | ctrl => exact absurd rfl hctrl
  | fWord i k => exact absurd rfl (hf i k)
  | _ => rfl

theorem hostWrite_of_not_accepted {width : Width} {off : Offset} (h : ¬ accepted width off = true) (s : State) (v : Word) :
    s.hostWrite width off v = s := if_neg h

theorem writeCtrl_of_clear_bits {v : Word} (h0 : v.getLsbD 0 = false) (h1 : v.getLsbD 1 = false) (s : State) :
    s.writeCtrl v = s := by
  simp only [State.writeCtrl, h0, h1, Bool.false_eq_true, if_false]

/-- Settles O46: the port does not take the access, or nothing that can be written stands at its offset, or CTRL has no bit to act
on. -/
theorem otherWritesAreIgnored : Obligations.OtherWritesAreIgnored := by
  intro s width off v h
  by_cases hacc : accepted width off = true
  case neg => exact hostWrite_of_not_accepted hacc s v
  obtain ⟨hwidth, halign⟩ := accepted_iff.mp hacc
  obtain hw | ha | ⟨hctrl, hcmd, hrange⟩ | ⟨hoff, h0, h1⟩ := h
  · exact absurd hwidth hw
  · exact absurd halign ha
  · rw [State.hostWrite, if_pos hacc]
    exact portWrite_of_not_writable (fun hr => hcmd (off_of_portReg_cmd hr)) (fun hr => hctrl (off_of_portReg_ctrl hr))
      fun _ _ hr => hrange (range_of_portReg_fWord hr)
  · subst hoff hwidth
    exact writeCtrl_of_clear_bits h0 h1 s

/-! ### Reads of the control registers (R26 to R33) -/

/-- A host read that finds a value returns it. -/
theorem hostRead_of_value {s : State} {off : Offset} {v : Word} (hacc : accepted .word off = true)
    (h : s.portRead (portReg off) = .value v) : Replied .word off v s (s.hostRead .word off) := by
  rw [State.hostRead, if_pos hacc, h]
  obtain ⟨u, hreplied, hu⟩ := reply_spec s .word off (.value v)
  rwa [hu v rfl] at hreplied

theorem whileIdle_of_idle {s : State} (h : s.busy = false) (v : Word) : s.whileIdle v = .value v := by
  simp [State.whileIdle, h]

/-- Bit i of PINF is the inf field of P register i (R33). -/
theorem pinfWord_getLsbD (s : State) (i : PIdx) : s.pinfWord.getLsbD i.val = (s.readP i).inf := by
  simp only [State.pinfWord, BitVec.getLsbD_append]
  fin_cases i <;> simp [State.infBit]

/-- Bits 31:8 of PINF are 0 (R33). -/
theorem pinfWord_getLsbD_of_ge (s : State) {j : Nat} (h : 8 ≤ j) : s.pinfWord.getLsbD j = false := by
  simp only [State.pinfWord, BitVec.getLsbD_append]
  repeat rw [if_neg (by omega)]
  exact BitVec.getLsbD_zero

/-- Settles O48: each control register stands at its offset and is found as it is, PINF while BUSY = 0. -/
theorem controlReadsReturnRegisters : Obligations.ControlReadsReturnRegisters := by
  intro s
  refine ⟨hostRead_of_value (by decide) rfl, hostRead_of_value (by decide) rfl, hostRead_of_value (by decide) rfl,
    hostRead_of_value (by decide) rfl, hostRead_of_value (by decide) rfl, hostRead_of_value (by decide) rfl,
    hostRead_of_value (by decide) rfl, fun hidle => ⟨hostRead_of_value (by decide) (whileIdle_of_idle hidle _),
      pinfWord_getLsbD s, fun _ => pinfWord_getLsbD_of_ge s⟩⟩

/-! ### STATUS (R28) -/

/-- Bit 1 of STATUS is ERR. -/
theorem statusWord_getLsbD_one (s : State) : s.statusWord.getLsbD 1 = s.errFlag := by
  simp only [State.statusWord, BitVec.getLsbD_append]
  simp

/-- Bits 15:8 of STATUS are ERRCODE. -/
theorem statusWord_code (s : State) : s.statusWord.extractLsb' 8 8 = s.errCode := by
  apply BitVec.eq_of_getLsbD_eq
  intro i hi
  simp only [State.statusWord, BitVec.getLsbD_extractLsb', BitVec.getLsbD_append, hi]
  grind

/-- The reserved bits of STATUS are 0. -/
theorem statusWord_reserved (s : State) {j : Nat} (h : 2 ≤ j ∧ j < 8 ∨ 16 ≤ j) : s.statusWord.getLsbD j = false := by
  simp only [State.statusWord, BitVec.getLsbD_append]
  grind

theorem errCode_of_err {s : State} {c : ErrorCode} (h : s.err = some c) : s.errCode = c.code := by
  simp [State.errCode, h]

/-- Settles O49: the fields of STATUS are BUSY, ERR and ERRCODE, and ERRCODE is the code of the latched cause. -/
theorem statusWordFields : Obligations.StatusWordFields := by
  intro s
  have hcode : ∀ c, s.err = some c → s.statusWord.extractLsb' 8 8 = c.code := fun c h =>
    (statusWord_code s).trans (errCode_of_err h)
  have hnone : s.err = none → s.statusWord.extractLsb' 8 8 = 0x00#8 := fun h =>
    (statusWord_code s).trans (by simp [State.errCode, h])
  exact ⟨statusWord_getLsbD_zero s, statusWord_getLsbD_one s, hnone, hcode _, hcode _, hcode _, hcode _, hcode _, hcode _,
    hcode, fun _ => statusWord_reserved s⟩

end Sys2Proof.Laws
end

section
/-! What every step keeps: the invariant of the block (R22, R28, R31, R32), who may clear ERR (R25) and who may change CMDCOUNT
(R24). Each is proved for a performed word by what performing can do, and for a host move by what a write can do. -/

namespace Sys2Proof.Laws

open Sys2Proof.Machine

/-! ### The storage invariant (R22) -/

theorem pointsStored_of_same {s t : State} (hp : ∀ i, t.readP i = s.readP i) (hl : t.ladder = s.ladder)
    (h : s.PointsStored) : t.PointsStored := by
  obtain ⟨hregs, hladder⟩ := h
  exact ⟨fun i => by rw [hp]; exact hregs i, by rwa [hl]⟩

/-- Writing a stored triple keeps the storage invariant. -/
theorem pointsStored_writeP {s : State} (h : s.PointsStored) (d : PIdx) {r : PReg} (hr : r.Stored) :
    (s.writeP d r).PointsStored := by
  obtain ⟨hregs, hladder⟩ := h
  refine ⟨fun i => ?_, hladder⟩
  by_cases hi : i = d
  · subst hi; rwa [State.readP_writeP_self]
  · rw [State.readP_writeP_of_ne s r hi]; exact hregs i

theorem pointsStored_of_ends {i : Instr} {s t : State} (h : s.PointsStored) (hends : Ends i s t) : t.PointsStored := by
  cases hends with
  | retire | writeF => exact h
  | writeP hdest q l hkeep =>
    obtain ⟨hq, hl⟩ := hkeep h
    exact pointsStored_writeP (s := { s with ladder := l }) ⟨h.1, hl⟩ _ (toPReg_stored hq)
  | divByZero | encodingRange => exact pointsStored_of_same (State.readP_raise s _) (State.raise_ladder s _) h

theorem pointsStored_runCommand {w : Word} {s t : State} (h : s.PointsStored) (hrun : runCommand w s = .next t) :
    t.PointsStored := by
  obtain ⟨i, -, hends⟩ | ⟨-, -, rfl⟩ := runCommand_cases hrun
  · exact pointsStored_of_ends h hends
  · exact pointsStored_of_same (State.readP_raise s _) (State.raise_ladder s _) h

/-- A P register that becomes unspecified still meets the storage invariant (log entry 7). -/
theorem pointsStored_forgetDest {s : State} (h : s.PointsStored) (d : Dest) : (s.forgetDest d).PointsStored := by
  cases d with
  | none | f => exact h
  | p d => exact pointsStored_writeP h d (unspecifiedPoint_stored _)

theorem pointsStored_forgetLadder {s : State} (h : s.PointsStored) : s.forgetLadder.PointsStored :=
  ⟨h.1, unspecifiedPoint_stored _, unspecifiedPoint_stored _⟩

theorem pointsStored_abandon {s : State} (h : s.PointsStored) (w : Word) : (s.abandon w).PointsStored := by
  unfold State.abandon
  split
  · exact h
  · split
    · exact pointsStored_forgetLadder (pointsStored_forgetDest h _)
    · exact pointsStored_forgetDest h _

/-- A soft reset resets the control state, after abandoning a command in flight (R117). -/
theorem softReset_cases (s : State) : s.softReset = s.resetControl ∨ ∃ w, s.softReset = (s.abandon w).resetControl := by
  unfold State.softReset
  split
  · exact .inl rfl
  · exact .inr ⟨_, rfl⟩

/-- A hard reset leaves unspecified points, which still meet the storage invariant (log entry 8). -/
theorem pointsStored_hardReset (s : State) : s.hardReset.PointsStored := by
  refine ⟨fun i => ?_, unspecifiedPoint_stored _, unspecifiedPoint_stored _⟩
  have hread : s.hardReset.readP i = unspecifiedPoint (s.draws + 16 + 2 * i.val) := by
    simp [State.hardReset, State.readP]
  rw [hread]
  exact unspecifiedPoint_stored _

/-! ### The latch (R28, R31, R32, R102) -/

theorem latchSound_of_same {s t : State} (hsame : SameLatch s t) (h : s.LatchSound) : t.LatchSound := by
  obtain ⟨herr, hpc, hcmd⟩ := hsame
  rw [State.LatchSound, herr, hpc, hcmd]
  exact h

/-- Latching a cause other than the reserved one keeps the latch sound. -/
theorem latchSound_of_latched {s t : State} {c : ErrorCode} {w : Word} (hlatch : Latched c w s t)
    (hc : c ≠ .degenerateSample) (h : s.LatchSound) : t.LatchSound := by
  by_cases herr : s.err = none
  · obtain ⟨hterr, -, -⟩ := hlatch.first herr
    exact ⟨fun hnone => (nomatch hterr.symm.trans hnone), fun hdeg => hc (Option.some.inj (hterr.symm.trans hdeg))⟩
  · exact latchSound_of_same (hlatch.later herr) h

theorem latchSound_runCommand {w : Word} {s t : State} (hw : s.inFlight = some w) (hrun : runCommand w s = .next t)
    (h : s.LatchSound) : t.LatchSound := by
  obtain hret | ⟨c, hraised, hc⟩ := runCommand_retired_or_raised hw hrun
  · exact latchSound_of_same hret.latch h
  · exact latchSound_of_latched hraised.latch hc h

theorem busyErrIsHostError_of_idle {s : State} (h : s.busy = false) : s.BusyErrIsHostError :=
  fun hbusy => absurd hbusy (by simp [h])

theorem busyErrIsHostError_of_clear {s : State} (h : s.err = none) : s.BusyErrIsHostError :=
  fun _ herr => absurd h herr

/-- A host error latched keeps that ERR under BUSY is a host error. -/
theorem busyErrIsHostError_latchError {s : State} (h : s.BusyErrIsHostError) (hbusy : s.busy = true) {c : ErrorCode}
    (hc : c = .cmdOverrun ∨ c = .hostWriteBusy) (w : Word) : (s.latchError c w).BusyErrIsHostError := by
  intro _ _
  by_cases herr : s.err = none
  · obtain ⟨hterr, -, -⟩ := (latchError_spec c w s).first herr
    rw [hterr]
    exact hc.imp (congrArg some) (congrArg some)
  · rw [((latchError_spec c w s).later herr).err]
    exact h hbusy herr

/-! ### The invariant -/

/-- The control state after either reset meets what the invariant says of it. -/
theorem inv_resetControl {s : State} (h : s.PointsStored) : s.resetControl.Inv :=
  ⟨h, ⟨fun _ => ⟨rfl, rfl⟩, nofun⟩, busyErrIsHostError_of_idle rfl⟩

theorem inv_clearError {s : State} (h : s.Inv) : s.clearError.Inv := by
  obtain ⟨hpoints, ⟨hclear, -⟩, -⟩ := h
  refine ⟨pointsStored_of_same (fun i => by simp [State.readP]) (by simp) hpoints, ⟨fun _ => ?_, by simp⟩,
    busyErrIsHostError_of_clear (by simp)⟩
  by_cases herr : s.err = none
  · rw [State.clearError_of_clear s herr]
    exact hclear herr
  · rw [State.clearError_of_latched s (Option.isSome_iff_ne_none.mpr herr)]
    exact ⟨rfl, rfl⟩

theorem inv_of_written {width : Width} {off : Offset} {v : Word} {s t : State} (h : s.Inv)
    (hwritten : Written width off v s t) : t.Inv := by
  obtain ⟨hpoints, hlatch, hhost⟩ := h
  cases hwritten with
  | ignored => exact ⟨hpoints, hlatch, hhost⟩
  | command _ hclear => exact ⟨hpoints, hlatch, busyErrIsHostError_of_clear hclear⟩
  | hostError hbusy c hc w =>
    obtain ⟨-, hp, hl⟩ := latchError_sameRegs s c w
    have hne : c ≠ .degenerateSample := by rintro rfl; simp at hc
    exact ⟨pointsStored_of_same hp hl hpoints, latchSound_of_latched (latchError_spec c w s) hne hlatch,
      busyErrIsHostError_latchError hhost hbusy hc w⟩
  | fWord hidle => exact ⟨hpoints, hlatch, busyErrIsHostError_of_idle hidle⟩
  | softReset =>
    obtain hreset | ⟨w, hreset⟩ := softReset_cases s <;> rw [hreset]
    · exact inv_resetControl hpoints
    · exact inv_resetControl (pointsStored_abandon hpoints w)
  | clearError => exact inv_clearError ⟨hpoints, hlatch, hhost⟩

theorem inv_of_replied {width : Width} {off : Offset} {v : Word} {s t : State} (h : s.Inv)
    (hreplied : Replied width off v s t) : t.Inv := by
  obtain ⟨hpoints, hlatch, hhost⟩ := h
  refine ⟨pointsStored_of_same hreplied.regs.p hreplied.regs.ladder hpoints, latchSound_of_same hreplied.latch hlatch, ?_⟩
  rw [State.BusyErrIsHostError, State.busy, hreplied.inFlight, hreplied.latch.err]
  exact hhost

theorem inv_perform {s : State} (h : s.Inv) (m : HostMove) : (s.perform m).Inv := by
  cases m with
  | read width off =>
    obtain ⟨v, hreplied⟩ := hostRead_spec s width off
    exact inv_of_replied h hreplied
  | write width off v =>
    have hwrite : (s.hostWrite width off v).Inv := inv_of_written h (hostWrite_written s width off v)
    exact hwrite
  | hardReset => exact inv_resetControl (pointsStored_hardReset s)

theorem inv_hostMove {s : State} (h : s.Inv) : s.hostMove.Inv := by
  cases hin : s.inbox with
  | nil => rwa [hostMove_of_nil hin]
  | cons m rest =>
    rw [hostMove_of_cons hin]
    exact inv_perform (s := takeMove s rest) h m

/-- Settles O57: a performed word keeps the points stored and the latch sound and leaves BUSY = 0; a host move keeps the
invariant whatever it is. -/
theorem everyStepKeepsInv : Obligations.EveryStepKeepsInv := by
  intro s t hinv hstep
  obtain ⟨w, hw, hrun⟩ | ⟨-, rfl⟩ := step_cases hstep
  · obtain ⟨hpoints, hlatch, -⟩ := hinv
    obtain ⟨t', ht', hidle⟩ := runCommand_idle w s
    cases hrun.symm.trans ht'
    exact ⟨pointsStored_runCommand hpoints hrun, latchSound_runCommand hw hrun hlatch, busyErrIsHostError_of_idle hidle⟩
  · exact inv_hostMove hinv

/-! ### Who clears ERR (R25) -/

theorem err_of_latched {s t : State} {c : ErrorCode} {w : Word} (hlatch : Latched c w s t) (h : s.err ≠ none) :
    t.err ≠ none := by
  rwa [(hlatch.later h).err]

theorem err_of_runCommand {w : Word} {s t : State} (hw : s.inFlight = some w) (hrun : runCommand w s = .next t)
    (h : s.err ≠ none) : t.err ≠ none := by
  obtain hret | ⟨c, hraised, -⟩ := runCommand_retired_or_raised hw hrun
  · rwa [hret.latch.err]
  · exact err_of_latched hraised.latch h

/-- A host write that clears ERR is a write to CTRL with SRST or ERRCLR. -/
theorem written_clears_err {width : Width} {off : Offset} {v : Word} {s t : State} (hwritten : Written width off v s t)
    (h : s.err ≠ none) (ht : t.err = none) :
    width = .word ∧ off = 0x004#12 ∧ (v.getLsbD 0 = true ∨ v.getLsbD 1 = true) := by
  cases hwritten with
  | ignored | command | fWord => exact absurd ht h
  | hostError _ c _ w => exact absurd ht (err_of_latched (latchError_spec c w s) h)
  | softReset hwidth hoff hbit => exact ⟨hwidth, hoff, .inl hbit⟩
  | clearError hwidth hoff hbit => exact ⟨hwidth, hoff, .inr hbit⟩

/-- A host move that clears ERR is a hard reset or a write to CTRL with SRST or ERRCLR. -/
theorem perform_clears_err {s : State} {m : HostMove} (h : s.err ≠ none) (ht : (s.perform m).err = none) :
    m = .hardReset ∨ ∃ v : Word, m = .write .word 0x004#12 v ∧ (v.getLsbD 0 = true ∨ v.getLsbD 1 = true) := by
  cases m with
  | read width off =>
    obtain ⟨v, hreplied⟩ := hostRead_spec s width off
    exact absurd (hreplied.latch.err.symm.trans ht) h
  | write width off v =>
    obtain ⟨rfl, rfl, hbit⟩ := written_clears_err (hostWrite_written s width off v) h ht
    exact .inr ⟨v, rfl, hbit⟩
  | hardReset => exact .inl rfl

/-- Settles O54: no performed word clears the latch, so the step was a host move, and only two kinds of those clear it. -/
theorem errClearedOnlyByErrclrOrReset : Obligations.ErrClearedOnlyByErrclrOrReset := by
  intro s t hstep herr ht
  obtain ⟨w, hw, hrun⟩ | ⟨-, rfl⟩ := step_cases hstep
  · exact absurd ht (err_of_runCommand hw hrun herr)
  · cases hin : s.inbox with
    | nil => exact absurd (hostMove_of_nil hin ▸ ht) herr
    | cons m rest =>
      rw [hostMove_of_cons hin] at ht
      exact ⟨m, rest, rfl, perform_clears_err (s := takeMove s rest) herr ht⟩

/-! ### Who changes CMDCOUNT (R24) -/

theorem softReset_cmdCount (s : State) : s.softReset.cmdCount = 0#32 := by
  obtain hreset | ⟨w, hreset⟩ := softReset_cases s <;> rw [hreset, State.resetControl_cmdCount]

/-- A host write leaves CMDCOUNT as it was, or is a soft reset and makes it 0. -/
theorem written_cmdCount {width : Width} {off : Offset} {v : Word} {s t : State} (hwritten : Written width off v s t) :
    t.cmdCount = s.cmdCount ∨ (t.cmdCount = 0#32 ∧ width = .word ∧ off = 0x004#12 ∧ v.getLsbD 0 = true) := by
  cases hwritten with
  | ignored | command | fWord => exact .inl rfl
  | hostError => exact .inl (State.latchError_cmdCount s _ _)
  | softReset hwidth hoff hbit => exact .inr ⟨softReset_cmdCount s, hwidth, hoff, hbit⟩
  | clearError => exact .inl (State.clearError_cmdCount s)

/-- A host move leaves CMDCOUNT as it was, or is a reset and makes it 0. -/
theorem perform_cmdCount (s : State) (m : HostMove) : (s.perform m).cmdCount = s.cmdCount ∨
    ((s.perform m).cmdCount = 0#32 ∧
      (m = .hardReset ∨ ∃ v : Word, m = .write .word 0x004#12 v ∧ v.getLsbD 0 = true)) := by
  cases m with
  | read width off =>
    obtain ⟨v, hreplied⟩ := hostRead_spec s width off
    exact .inl hreplied.count
  | write width off v =>
    obtain hsame | ⟨hzero, rfl, rfl, hbit⟩ := written_cmdCount (hostWrite_written s width off v)
    · exact .inl hsame
    · exact .inr ⟨hzero, .inr ⟨v, rfl, hbit⟩⟩
  | hardReset => exact .inr ⟨rfl, .inl rfl⟩

/-- Settles O55: a retirement counts one and an error entry none; of the host's moves only a reset changes the count. -/
theorem cmdcountCountsRetirements : Obligations.CmdcountCountsRetirements := by
  intro s t hstep
  obtain ⟨w, hw, hrun⟩ | ⟨-, rfl⟩ := step_cases hstep
  · obtain hret | ⟨c, hraised, -⟩ := runCommand_retired_or_raised hw hrun
    · exact .inr (.inl ⟨hret.count, by simp [State.busy, hw], hret.idle⟩)
    · exact .inl hraised.count
  · cases hin : s.inbox with
    | nil => exact .inl (by rw [hostMove_of_nil hin])
    | cons m rest =>
      rw [hostMove_of_cons hin]
      obtain hsame | ⟨hzero, hreset⟩ := perform_cmdCount (takeMove s rest) m
      · exact .inl hsame
      · exact .inr (.inr ⟨hzero, m, rest, rfl, hreset⟩)

end Sys2Proof.Laws
end

section
/-! The words of the registers at the port (20_memory R38 to R45): the order of bytes and words, host reads, reads of the F and P
windows, writes to the F window. A step in which no command is due performs one access, on the state that `takeMove` names. -/

namespace Sys2Proof.Laws

open Sys2Proof.Machine

/-- Settles O59: performing a due word answers a next state, and a host move is one. -/
theorem everyStepAnswersNextState : Obligations.EveryStepAnswersNextState := by
  intro s
  cases hdue : s.dueCommand with
  | some w =>
    obtain ⟨t, hrun, -⟩ := runCommand_idle w s
    exact ⟨t, (step_of_due hdue).trans hrun⟩
  | none => exact ⟨_, step_of_not_due hdue⟩

/-! ### Bytes and words (R42) -/

/-- Settles O39: both sides are eight bits of v, and they begin at the same bit, since 8 j = 32 (j / 4) + 8 (j mod 4). -/
theorem bytesLieBigEndianInWords : Obligations.BytesLieBigEndianInWords := by
  intro v j hj
  apply BitVec.eq_of_getLsbD_eq
  intro i hi
  have hinside : 24 - 8 * (j % 4) + i < 32 := by omega
  have hstart : 224 - 32 * (j / 4) + (24 - 8 * (j % 4) + i) = 248 - 8 * j + i := by omega
  simp only [byteOf, wordOf, BitVec.getLsbD_extractLsb', hinside, hstart, decide_true, Bool.true_and]

/-! ### Host reads (R38, R44) -/

/-- A read answered right after the move was taken from the list leaves the block as it was before that. -/
theorem replied_of_takeMove {width : Width} {off : Offset} {v : Word} {s t : State} {rest : List HostMove}
    (h : Replied width off v (takeMove s rest) t) : Replied width off v s t := by
  obtain ⟨⟨hf, hp, hladder⟩, ⟨herr, hpc, hcmd⟩, hcount, hflight, hhist⟩ := h
  exact ⟨⟨hf, hp, hladder⟩, ⟨herr, hpc, hcmd⟩, hcount, hflight, hhist⟩

/-- Nothing stands between the control registers and the F window, between the windows, and above them (R37). -/
theorem portReg_of_reserved {off : Offset}
    (h : (0x020 ≤ off.toNat ∧ off.toNat < 0x100) ∨ (0x300 ≤ off.toNat ∧ off.toNat < 0x400) ∨ 0x600 ≤ off.toNat) :
    portReg off = .reserved := by
  simp only [portReg]
  rw [if_neg (by omega), if_neg (by omega), if_neg (by omega)]

/-- What a host read returns to the host. -/
theorem hostRead_replied (s : State) (width : Width) (off : Offset) : ∃ v, Replied width off v s (s.hostRead width off) ∧
    (accepted width off = false → v = 0#32) ∧ (portReg off = .reserved → v = 0#32) := by
  obtain ⟨v, hreplied, hvalue⟩ := reply_spec s width off (if accepted width off then s.portRead (portReg off) else .value 0#32)
  refine ⟨v, hreplied, fun hacc => hvalue _ ?_, fun hreg => hvalue _ ?_⟩
  · rw [hacc, if_neg Bool.false_ne_true]
  · rw [hreg, State.portRead, ite_self]

/-- Settles O47: the step is the read, whose reply is 0 if the port does not take the access or nothing stands at the offset. -/
theorem readsHaveNoSideEffect : Obligations.ReadsHaveNoSideEffect := by
  intro s width off rest hin hdue
  obtain ⟨v, hreplied, hrefused, hreserved⟩ := hostRead_replied (takeMove s rest) width off
  obtain ⟨hinbox, -⟩ := perform_host (takeMove s rest) (.read width off)
  refine ⟨_, v, ?_, hinbox, replied_of_takeMove hreplied, fun hbad => hrefused ?_,
    fun hrange => hreserved (portReg_of_reserved hrange)⟩
  · rw [step_of_not_due hdue, hostMove_of_cons hin]
  · rw [← Bool.not_eq_true, accepted_iff, not_and_or]
    exact hbad

/-! ### Reads of the F and P windows (R39, R40) -/

/-- While BUSY = 0, a host read of a word of a window returns that word. -/
theorem hostRead_of_window {s : State} {off : Offset} {r : PortReg} {v : Word} (hidle : s.busy = false)
    (hat : portReg off = r ∧ accepted .word off = true) (hfinds : s.portRead r = s.whileIdle v) :
    Replied .word off v s (s.hostRead .word off) := by
  obtain ⟨rfl, hacc⟩ := hat
  exact hostRead_of_value hacc (hfinds.trans (whileIdle_of_idle hidle v))

/-- Settles O50: each offset is that of one word of one register, and while BUSY = 0 a read returns that word. -/
theorem windowReadsReturnRegisterWords : Obligations.WindowReadsReturnRegisterWords := by
  intro s k off hidle
  exact ⟨fun i hoff => hostRead_of_window hidle (portReg_fWord (i := i) hoff) rfl,
    fun i hoff => hostRead_of_window hidle (portReg_pXWord (i := i) hoff) rfl,
    fun i hoff => hostRead_of_window hidle (portReg_pYWord (i := i) hoff) rfl⟩

/-! ### Writes to the F window (R39, R108) -/

theorem hostWrite_fWord {off : Offset} {i : FIdx} {k : Fin 8} (h : off.toNat = 0x100 + 0x20 * i.val + 4 * k.val) (s : State)
    (v : Word) : s.hostWrite .word off v = s.writeFWord i k v := by
  obtain ⟨hreg, hacc⟩ := portReg_fWord h
  rw [State.hostWrite, if_pos hacc, hreg, State.portWrite]

theorem writeFWord_of_busy {s : State} (h : s.busy = true) (i : FIdx) (k : Fin 8) (v : Word) :
    s.writeFWord i k v = s.latchError .hostWriteBusy 0#32 := if_pos h

theorem writeFWord_of_idle {s : State} (h : s.busy = false) (i : FIdx) (k : Fin 8) (v : Word) :
    s.writeFWord i k v = s.writeF i (replaceWord (s.readF i) k.val v) := if_neg (Bool.not_eq_true _ ▸ h)

/-- A write to the F window, performed or dropped, changes neither CMDCOUNT nor the command in flight. -/
theorem writeFWord_frame (s : State) (i : FIdx) (k : Fin 8) (v : Word) :
    (s.writeFWord i k v).cmdCount = s.cmdCount ∧ (s.writeFWord i k v).inFlight = s.inFlight := by
  unfold State.writeFWord
  split
  · exact ⟨State.latchError_cmdCount s _ _, State.latchError_inFlight s _ _⟩
  · exact ⟨rfl, rfl⟩

/-- Settles O45: the step is the write to the word of the register, which BUSY decides between replacing it and an error. -/
theorem fWindowWriteReplacesOneWord : Obligations.FWindowWriteReplacesOneWord := by
  intro s i k v off rest hoff hin hdue
  have hwrite := hostWrite_fWord hoff (takeMove s rest) v
  obtain ⟨hinbox, hhist⟩ := hwrite ▸ hostWrite_host (takeMove s rest) .word off v
  obtain ⟨hcount, hflight⟩ := writeFWord_frame (takeMove s rest) i k v
  refine ⟨rfl, ((takeMove s rest).writeFWord i k v).record (.write .word off v), ?_, hinbox, ?_, hcount, hflight,
    fun hidle => ?_, fun hbusy => ?_⟩
  · rw [step_of_not_due hdue, hostMove_of_cons hin, State.perform, hwrite]
  · rw [State.record_history, hhist, takeMove_history]
  · rw [writeFWord_of_idle ((takeMove_busy s rest).trans hidle), State.readF_record, State.readF_writeF_self]
    exact ⟨⟨fun j hj => State.readF_writeF_of_ne (takeMove s rest) _ hj, fun _ => rfl, rfl⟩, ⟨rfl, rfl, rfl⟩,
      wordOf_replaceWord_self _ (by omega) v,
      fun j hj => wordOf_replaceWord_of_ne _ (by omega) (by omega) (Fin.val_ne_of_ne hj) v⟩
  · rw [writeFWord_of_busy ((takeMove_busy s rest).trans hbusy)]
    obtain ⟨hf, hp, hladder⟩ := latchError_sameRegs (takeMove s rest) .hostWriteBusy 0#32
    obtain ⟨hfirst, hlater⟩ := latchError_spec .hostWriteBusy 0#32 (takeMove s rest)
    refine ⟨⟨hf, hp, hladder⟩, hfirst, fun h => ?_⟩
    obtain ⟨herr, hpc, hcmd⟩ := hlater h
    exact ⟨herr, hpc, hcmd⟩

end Sys2Proof.Laws
end

section
/-! The decoder and the encoder (R54-R61). The decoder accepts a word for a row in three parts: the row's opcode, zeros in the
fields the row's format does not use, and a command built from the fields that remain. Each statement on decoding is shown of
the three parts. -/

namespace Sys2Proof.Laws

open Sys2Proof.Machine

/-- What it is that a word decodes to a command: the three parts. -/
theorem decode_eq_ok_iff {w : Word} {i : Instr} :
    decode w = .ok i ↔ ∃ o : Op, o.opc = opcField w ∧ o.format.unusedZero w = true ∧ o.build w = some i := by
  constructor
  · intro h
    unfold decode at h
    split at h
    · cases h
    next o ho =>
      split at h
      next hzero =>
        split at h
        next j hbuild =>
          cases h
          exact ⟨o, opc_of_ofOpc ho, hzero, hbuild⟩
        · cases h
      · cases h
  · rintro ⟨o, hopc, hzero, hbuild⟩
    simp only [decode, ← hopc, ofOpc_opc, hzero, hbuild, if_true]

/-- The word of every command has its row's opcode, and zeros in the fields its format does not use. -/
theorem encode_opcode_and_format (i : Instr) : OpcodeAndFormat.Statement i := by
  cases i with
  | nop => exact OpcodeAndFormat.nop
  | mov d a => exact OpcodeAndFormat.mov d a
  | ldi d imm => exact OpcodeAndFormat.ldi d imm
  | fadd d a b => exact OpcodeAndFormat.fadd d a b
  | fsub d a b => exact OpcodeAndFormat.fsub d a b
  | fmul d a b => exact OpcodeAndFormat.fmul d a b
  | fdiv d a b => exact OpcodeAndFormat.fdiv d a b
  | finv d a => exact OpcodeAndFormat.finv d a
  | fexp d a b => exact OpcodeAndFormat.fexp d a b
  | fexpm d a b m => exact OpcodeAndFormat.fexpm d a b m
  | fred d a => exact OpcodeAndFormat.fred d a
  | pgen d => exact OpcodeAndFormat.pgen d
  | pset d a b => exact OpcodeAndFormat.pset d a b
  | px d a => exact OpcodeAndFormat.px d a
  | py d a => exact OpcodeAndFormat.py d a
  | pdbl d a => exact OpcodeAndFormat.pdbl d a
  | padd d a b => exact OpcodeAndFormat.padd d a b
  | pmul d a b => exact OpcodeAndFormat.pmul d a b
  | bits d a w => exact OpcodeAndFormat.bits d a w
  | brev d a w => exact OpcodeAndFormat.brev d a w
  | wsplit d a k => exact OpcodeAndFormat.wsplit d a k
  | wins d a k => exact OpcodeAndFormat.wins d a k
  | fpack d a h => exact OpcodeAndFormat.fpack d a h

/-! ### Immediates (R57) -/

/-- The three parts of a 16-bit immediate put together again. -/
theorem append_imm16_parts (imm : BitVec 16) : imm.extractLsb' 12 4 ++ imm.extractLsb' 8 4 ++ imm.extractLsb' 0 8 = imm := by
  apply BitVec.eq_of_getLsbD_eq
  intro i hi
  simp only [BitVec.getLsbD_append, BitVec.getLsbD_extractLsb']
  grind

theorem extract_imm16Field (w : Word) : (imm16Field w).extractLsb' 12 4 = bField w ∧
    (imm16Field w).extractLsb' 8 4 = mField w ∧ (imm16Field w).extractLsb' 0 8 = imm8Field w := by
  refine ⟨?_, ?_, ?_⟩ <;> exact BitVec.extractLsb'_extractLsb'_of_le (by decide)

/-- A number in the immediate field stands for itself. -/
theorem toNat_ofNat_imm8 {n : Nat} (h : n < 256) : (BitVec.ofNat 8 n).toNat = n := Nat.mod_eq_of_lt h

theorem boundedImm_ofNat {bound k : Nat} (hbound : bound < 256) (h : k ≤ bound) :
    boundedImm bound (BitVec.ofNat 8 k) = some k := by
  rw [boundedImm, toNat_ofNat_imm8 (h.trans_lt hbound), if_pos h]

theorem boundedImm_eq_some {bound k : Nat} {x : BitVec 8} :
    boundedImm bound x = some k ↔ x.toNat ≤ bound ∧ x.toNat = k := by
  rw [boundedImm, Option.ite_none_right_eq_some, Option.some.injEq]

theorem pReg_eq_some {x : BitVec 4} {r : PIdx} : pReg x = some r ↔ pField r = x := by
  revert x r; decide

/-! ### Decoding what was encoded -/

/-- The row of a well-formed command builds it from the fields of its word. -/
theorem build_encode {i : Instr} (h : i.WellFormed) : i.op.build (encode i) = some i := by
  cases i with
  | ldi d imm => simp [Op.build, encode, Instr.op, imm16Field_ofFields, append_imm16_parts]
  | bits d a w | brev d a w =>
    have hw : WidthOk w := of_decide_eq_true h
    have himm : (BitVec.ofNat 8 (w - 1)).toNat + 1 = w := by rw [toNat_ofNat_imm8 (by omega)]; omega
    simp [Op.build, encode, riWord, Instr.op, -BitVec.toNat_ofNat, himm]
  | wsplit d a k | wins d a k | fpack d a k =>
    simp [Op.build, encode, riWord, Instr.op, boundedImm_ofNat (by decide) (of_decide_eq_true h)]
  | _ => simp [Op.build, encode, regWord, Instr.op]

/-- Settles O1: the word of a command has the three parts of its row, and the third builds the command. -/
theorem decodeEncodeRoundTrip : Obligations.DecodeEncodeRoundTrip := by
  intro i hwf
  obtain ⟨hopc, hzero⟩ := encode_opcode_and_format i
  exact decode_eq_ok_iff.mpr ⟨i.op, hopc.symm, hzero, build_encode hwf⟩

/-! ### Encoding what was decoded -/

/-- What a row builds from the fields of a word is a command of that row, whose word has those fields. -/
theorem encode_of_build {o : Op} {w : Word} {i : Instr} (hopc : o.opc = opcField w)
    (hzero : o.format.unusedZero w = true) (hbuild : o.build w = some i) :
    i.WellFormed ∧ i.op = o ∧ encode i = w := by
  have hfields : ofFields o.opc (dField w) (aField w) (bField w) (mField w) (imm8Field w) = w := hopc ▸ ofFields_fields w
  cases o <;> simp only [Op.format, Format.unusedZero, Bool.and_eq_true, beq_iff_eq] at hzero
  case ldi =>
    obtain ⟨h12, h8, h0⟩ := extract_imm16Field w
    obtain rfl := Option.some.inj hbuild
    exact ⟨rfl, rfl, by simpa [encode, hzero, h12, h8, h0] using hfields⟩
  case pgen | pset =>
    obtain ⟨d, hd, rfl⟩ := Option.map_eq_some_iff.mp hbuild
    exact ⟨rfl, rfl, by simpa [encode, regWord, hzero, pReg_eq_some.mp hd] using hfields⟩
  case px | py =>
    obtain ⟨a, ha, rfl⟩ := Option.map_eq_some_iff.mp hbuild
    exact ⟨rfl, rfl, by simpa [encode, regWord, hzero, pReg_eq_some.mp ha] using hfields⟩
  case pdbl | pmul =>
    obtain ⟨d, hd, hrest⟩ := Option.bind_eq_some_iff.mp hbuild
    obtain ⟨a, ha, rfl⟩ := Option.map_eq_some_iff.mp hrest
    exact ⟨rfl, rfl, by simpa [encode, regWord, hzero, pReg_eq_some.mp hd, pReg_eq_some.mp ha] using hfields⟩
  case padd =>
    obtain ⟨d, hd, hrest⟩ := Option.bind_eq_some_iff.mp hbuild
    obtain ⟨a, ha, hrest⟩ := Option.bind_eq_some_iff.mp hrest
    obtain ⟨b, hb, rfl⟩ := Option.map_eq_some_iff.mp hrest
    exact ⟨rfl, rfl, by
      simpa [encode, regWord, hzero, pReg_eq_some.mp hd, pReg_eq_some.mp ha, pReg_eq_some.mp hb] using hfields⟩
  case wsplit | wins | fpack =>
    obtain ⟨k, hk, rfl⟩ := Option.map_eq_some_iff.mp hbuild
    obtain ⟨hle, rfl⟩ := boundedImm_eq_some.mp hk
    exact ⟨decide_eq_true hle, rfl, by simpa [encode, riWord, hzero] using hfields⟩
  case bits | brev =>
    obtain rfl := Option.some.inj hbuild
    exact ⟨decide_eq_true ⟨by omega, (imm8Field w).isLt⟩, rfl, by simpa [encode, riWord, hzero] using hfields⟩
  all_goals
    obtain rfl := Option.some.inj hbuild
    exact ⟨rfl, rfl, by simpa [encode, regWord, hzero] using hfields⟩

/-- Settles O2: the row that accepts the word builds the command from the word's own fields. -/
theorem encodeDecodeRoundTrip : Obligations.EncodeDecodeRoundTrip := by
  intro w i hdec
  obtain ⟨o, hopc, hzero, hbuild⟩ := decode_eq_ok_iff.mp hdec
  obtain ⟨hwf, -, hword⟩ := encode_of_build hopc hzero hbuild
  exact ⟨hwf, hword⟩

/-! ### The opcode map's masks and matches (R58) -/

/-- Masking a word masks each of its fields. -/
theorem and_fields (w v : Word) : w &&& v = ofFields (opcField w &&& opcField v) (dField w &&& dField v)
    (aField w &&& aField v) (bField w &&& bField v) (mField w &&& mField v) (imm8Field w &&& imm8Field v) := by
  rw [← and_ofFields, ofFields_fields, ofFields_fields]

/-- What a row's match under its mask says of the fields of a word: the row's opcode, and zeros under the mask elsewhere. -/
structure Fixed (o : Op) (w : Word) : Prop where
  opc : opcField w = o.opc
  d : dField w &&& dField o.mask = 0#4
  a : aField w &&& aField o.mask = 0#4
  b : bField w &&& bField o.mask = 0#4
  m : mField w &&& mField o.mask = 0#4
  imm : imm8Field w &&& imm8Field o.mask = 0#8

theorem fixed_of_masked {o : Op} {w : Word} (h : w &&& o.mask = o.pattern) : Fixed o w := by
  obtain ⟨hmask, hmatch⟩ := mask_match_fields o
  rw [and_fields, hmask, show opcField w &&& 0xFF#8 = opcField w from BitVec.and_allOnes, ← hmatch] at h
  exact ⟨by simpa using congrArg opcField h, by simpa using congrArg dField h, by simpa using congrArg aField h,
    by simpa using congrArg bField h, by simpa using congrArg mField h, by simpa using congrArg imm8Field h⟩

/-- A field of which the mask takes every bit is zero. -/
theorem eq_zero_of_full_mask {n : Nat} {x y : BitVec n} (hy : y = BitVec.allOnes n) (h : x &&& y = 0) : x = 0 := by
  rwa [hy, BitVec.and_allOnes] at h

/-- The mask of a row takes every bit of the fields that its format does not use (R55, R58). -/
theorem unusedZero_of_fixed {o : Op} {w : Word} (h : Fixed o w) : o.format.unusedZero w = true := by
  obtain ⟨-, hd, ha, hb, hm, himm⟩ := h
  cases o <;> simp only [Op.format, Format.unusedZero, Bool.and_eq_true, beq_iff_eq]
  case nop =>
    exact ⟨⟨⟨⟨eq_zero_of_full_mask rfl hd, eq_zero_of_full_mask rfl ha⟩, eq_zero_of_full_mask rfl hb⟩,
      eq_zero_of_full_mask rfl hm⟩, eq_zero_of_full_mask rfl himm⟩
  case ldi => exact eq_zero_of_full_mask rfl ha
  case pgen =>
    exact ⟨⟨⟨eq_zero_of_full_mask rfl ha, eq_zero_of_full_mask rfl hb⟩, eq_zero_of_full_mask rfl hm⟩,
      eq_zero_of_full_mask rfl himm⟩
  case mov | finv | fred | px | py | pdbl =>
    exact ⟨⟨eq_zero_of_full_mask rfl hb, eq_zero_of_full_mask rfl hm⟩, eq_zero_of_full_mask rfl himm⟩
  case fadd | fsub | fmul | fdiv | fexp | pset | padd | pmul =>
    exact ⟨eq_zero_of_full_mask rfl hm, eq_zero_of_full_mask rfl himm⟩
  case fexpm => exact eq_zero_of_full_mask rfl himm
  case bits | brev | wsplit | wins | fpack =>
    exact ⟨eq_zero_of_full_mask rfl hb, eq_zero_of_full_mask rfl hm⟩

/-- A field whose bit 3 is zero names a P register (R56). -/
theorem pReg_of_mask {x : BitVec 4} (h : x &&& 8#4 = 0#4) : ∃ r, pReg x = some r := by
  revert x; decide

/-- The mask of WSPLIT and WINS leaves the word numbers 0 to 7 (R57). -/
theorem le_seven_of_mask {x : BitVec 8} (h : x &&& 0xF8#8 = 0#8) : x.toNat ≤ 7 := by
  revert x; decide

/-- The mask of FPACK leaves the halves 0 and 1 (R57). -/
theorem le_one_of_mask {x : BitVec 8} (h : x &&& 0xFE#8 = 0#8) : x.toNat ≤ 1 := by
  revert x; decide

/-- The mask of a row refuses every field that is out of range (R56, R57, R58). -/
theorem build_of_fixed {o : Op} {w : Word} (h : Fixed o w) : ∃ i, o.build w = some i := by
  obtain ⟨-, hd, ha, hb, -, himm⟩ := h
  cases o
  case pgen | pset =>
    obtain ⟨d, hd⟩ := pReg_of_mask hd
    exact ⟨_, Option.map_eq_some_iff.mpr ⟨d, hd, rfl⟩⟩
  case px | py =>
    obtain ⟨a, ha⟩ := pReg_of_mask ha
    exact ⟨_, Option.map_eq_some_iff.mpr ⟨a, ha, rfl⟩⟩
  case pdbl | pmul =>
    obtain ⟨d, hd⟩ := pReg_of_mask hd
    obtain ⟨a, ha⟩ := pReg_of_mask ha
    exact ⟨_, Option.bind_eq_some_iff.mpr ⟨d, hd, Option.map_eq_some_iff.mpr ⟨a, ha, rfl⟩⟩⟩
  case padd =>
    obtain ⟨d, hd⟩ := pReg_of_mask hd
    obtain ⟨a, ha⟩ := pReg_of_mask ha
    obtain ⟨b, hb⟩ := pReg_of_mask hb
    exact ⟨_, Option.bind_eq_some_iff.mpr ⟨d, hd, Option.bind_eq_some_iff.mpr ⟨a, ha,
      Option.map_eq_some_iff.mpr ⟨b, hb, rfl⟩⟩⟩⟩
  case wsplit | wins =>
    exact ⟨_, Option.map_eq_some_iff.mpr ⟨_, boundedImm_eq_some.mpr ⟨le_seven_of_mask himm, rfl⟩, rfl⟩⟩
  case fpack => exact ⟨_, Option.map_eq_some_iff.mpr ⟨_, boundedImm_eq_some.mpr ⟨le_one_of_mask himm, rfl⟩, rfl⟩⟩
  all_goals exact ⟨_, rfl⟩

/-- Settles O3: forwards the word is that of its command, whose fixed bits are its row's; backwards the fixed bits give the
three parts of the decoder's acceptance. -/
theorem decoderAgreesWithOpcodeMap : Obligations.DecoderAgreesWithOpcodeMap := by
  intro w o
  constructor
  · rintro ⟨i, hdec, rfl⟩
    obtain ⟨hwf, hword⟩ := encodeDecodeRoundTrip w i hdec
    exact hword ▸ encode_fixed hwf
  · intro hmasked
    have hfixed := fixed_of_masked hmasked
    have hzero := unusedZero_of_fixed hfixed
    obtain ⟨i, hbuild⟩ := build_of_fixed hfixed
    obtain ⟨-, hrow, -⟩ := encode_of_build hfixed.opc.symm hzero hbuild
    exact ⟨i, decode_eq_ok_iff.mpr ⟨o, hfixed.opc.symm, hzero, hbuild⟩, hrow⟩

/-- Settles O4: each word evaluated. -/
theorem specWordsDecodeAsListed : Obligations.SpecWordsDecodeAsListed := by
  unfold Obligations.SpecWordsDecodeAsListed
  decide

/-! ### Illegal words (R59, R60) -/

/-- A word in no row of the opcode map decodes to no command. -/
theorem decode_error_of_no_row {w : Word} (h : ∀ o : Op, w &&& o.mask ≠ o.pattern) : ∃ e, decode w = .error e := by
  cases hdec : decode w with
  | error e => exact ⟨e, rfl⟩
  | ok i => exact absurd ((decoderAgreesWithOpcodeMap w i.op).mp ⟨i, hdec, rfl⟩) (h i.op)

theorem runCommand_of_error {w : Word} {e : Illegal} (h : decode w = .error e) (s : State) :
    runCommand w s = .next (s.raise .illegalCommand) := by
  rw [runCommand, h]

/-- Settles O6: the word is due and decodes to no command, so the step is error entry. -/
theorem illegalWordRaisesIllegalCommand : Obligations.IllegalWordRaisesIllegalCommand := by
  intro s w hw hready hrows
  obtain ⟨e, hdec⟩ := decode_error_of_no_row hrows
  have hdue : s.dueCommand = some w := (dueCommand_of_ready hready).trans hw
  exact ⟨rfl, _, (step_of_due hdue).trans (runCommand_of_error hdec s), raise_spec s .illegalCommand hw⟩

end Sys2Proof.Laws
end

section
/-! The pseudo-instructions FNEG and PCOPY (R62): LDI of a constant to a scratch register, then one command that reads it. -/

namespace Sys2Proof.Laws

open Sys2Proof.Machine

/-- One command and then another, the first of which answers a next state. -/
theorem execTwo_of_next {i : Instr} {s t : State} (h : exec i s = .next t) (j : Instr) : execTwo i j s = exec j t := by
  rw [execTwo, h]

/-- What LDI leaves (R98). -/
theorem exec_ldi (t : FIdx) (imm : BitVec 16) (s : State) :
    exec (.ldi t imm) s = .next (s.finishF t imm.toNat) ∧ RetiredF t imm.toNat s (s.finishF t imm.toNat) :=
  ⟨rfl, finishF_spec s t (by omega)⟩

/-- Of the registers, every F register but the destination keeps its number. -/
theorem natF_of_onlyF {d i : FIdx} {s t : State} (h : OnlyF d s t) (hi : i ≠ d) : t.natF i = s.natF i :=
  congrArg BitVec.toNat (h.f i hi)

/-- The difference 0 - a is the negative of a modulo p. -/
theorem fsub_zero_red_add (a : Nat) : (fsub (red 0) (red a) + a) % Config.p = 0 := by
  apply Nat.mod_eq_zero_of_dvd
  rw [← ZMod.natCast_eq_zero_iff, Nat.cast_add, fsub_zmod, red_zmod, red_zmod, Nat.cast_zero, zero_sub, neg_add_cancel]

/-- The scalar 1 gives the point itself: after the first iteration no bit is left (R78, R86). -/
theorem pmul_one_eq (q : Point) : pmul q 1 = q := by
  have hbits : ∀ i, 1 ≤ i → Nat.testBit 1 i = false := fun i hi =>
    Nat.testBit_lt_two_pow (Nat.one_lt_two_pow (by omega))
  calc pmul q 1 = (ladderRun 1 255 (ladderStep 1 ⟨.inf, q, 0⟩)).result := pmul_eq_ladder q 1
    _ = (ladderStep 1 ⟨.inf, q, 0⟩).result := ladderRun_result_of_no_bits 1 255 _ hbits
    _ = q := by simp [ladderStep, padd]

theorem fneg_gives_negative (d a t : FIdx) (s : State) (hta : t ≠ a) :
    ∃ u, execTwo (.ldi t 0#16) (.fsub d t a) s = .next u ∧ (u.natF d + s.natF a) % Config.p = 0 ∧
      u.natF d < Config.p ∧ (t ≠ d → u.natF t = 0) := by
  obtain ⟨hldi, hzero, honly, -⟩ := exec_ldi t 0#16 s
  have ha := natF_of_onlyF honly hta.symm
  generalize s.finishF t (0#16).toNat = v at hldi hzero ha
  have hlt : fsub (v.redF t) (v.redF a) < Config.p := fsub_lt _ _
  obtain ⟨hval, hframe, -⟩ := finishF_spec v d (hlt.trans p_lt_256)
  refine ⟨_, execTwo_of_next hldi _, ?_, ?_, fun htd => ?_⟩
  · rw [hval, State.redF, State.redF, hzero, ha]
    exact fsub_zero_red_add _
  · rw [hval]
    exact hlt
  · rw [natF_of_onlyF hframe htd, hzero]
    rfl

theorem pcopy_gives_copy (d a : PIdx) (t : FIdx) (s : State) (ha : (s.readP a).Stored) :
    ∃ u, execTwo (.ldi t 1#16) (.pmul d a t) s = .next u ∧ u.readP d = s.readP a ∧ u.natF t = 1 := by
  obtain ⟨hldi, hone, ⟨-, hp, -⟩, -⟩ := exec_ldi t 1#16 s
  generalize s.finishF t (1#16).toNat = v at hldi hone hp
  refine ⟨_, execTwo_of_next hldi _, ?_, hone⟩
  obtain ⟨hval, -⟩ := finishP_spec { v with ladder := ladderAfter (v.pointP a) (v.natF t) v.ladder } d
    (pmul (v.pointP a) (v.natF t)).toPReg
  calc _ = (pmul (v.pointP a) (v.natF t)).toPReg := hval
    _ = (v.pointP a).toPReg := congrArg Point.toPReg (hone ▸ pmul_one_eq _)
    _ = s.readP a := by rw [State.pointP, hp a, toPReg_toPoint ha]

/-- Settles O43: each expansion is LDI and one command, FNEG's subtracting from 0 and PCOPY's multiplying by 1. -/
theorem pseudoFnegAndPcopyMeanWhatTheyName : Obligations.PseudoFnegAndPcopyMeanWhatTheyName :=
  ⟨fun d a t s hallowed => ⟨_, _, (fneg_gives_negative d a t s (bne_iff_ne.mp hallowed)).imp fun _ h => ⟨rfl, h⟩⟩,
    fun d a t s ha => ⟨_, _, (pcopy_gives_copy d a t s ha).imp fun _ h => ⟨rfl, h⟩⟩⟩

end Sys2Proof.Laws
end

section
/-! The field unit (R65-R74). Each command reduces its operands first; a law of modular arithmetic per primitive says that the
result is the same for the operands as they stand. -/

namespace Sys2Proof.Laws

open Sys2Proof.Machine

/-- A well-formed command has the opcode and the format of its row, and its word the row's fixed bits (R55, R58). -/
theorem encoded_of_wellFormed {i : Instr} (h : i.WellFormed) : Encoded i i.op.opc i.op.format :=
  ⟨rfl, rfl, encode_fixed h⟩

/-! ### The primitives on reduced operands -/

theorem fadd_red (a b : Nat) : fadd (red a) (red b) = (a + b) % Config.p := (Nat.add_mod a b _).symm

theorem fsub_red (a b : Nat) : (fsub (red a) (red b) : Int) = ((a : Int) - b) % Config.p := by
  rw [fsub_cast, red, red, Int.natCast_mod, Int.natCast_mod, ← Int.sub_emod]

theorem fmul_red (a b : Nat) : fmul (red a) (red b) = a * b % Config.p := (Nat.mul_mod a b _).symm

theorem fpow_red (a : Nat) {e : Nat} (h : e < 2 ^ 256) : fpow (red a) e = a ^ e % Config.p := by
  rw [fpow_eq _ _ h, red, ← Nat.pow_mod]

theorem finv_red (a : Nat) : finv (red a) = a ^ (Config.p - 2) % Config.p := fpow_red a (by decide)

theorem fdiv_red (a b : Nat) : fdiv (red a) (red b) = a * b ^ (Config.p - 2) % Config.p := by
  rw [fdiv, finv_red, fmul, red, ← Nat.mul_mod]

/-- FEXPM's power, whose base is reduced by the modulus in use (R71). -/
theorem powMod_mod (m a : Nat) {e : Nat} (h : e < 2 ^ 256) : powMod m 256 (a % m) e = a ^ e % m := by
  rw [powMod_eq m 256 _ e h, ← Nat.pow_mod]

/-! ### Retiring with a result -/

theorem natF_lt (s : State) (i : FIdx) : s.natF i < 2 ^ 256 := (s.readF i).isLt

theorem mod_p_lt_256 (a : Nat) : a % Config.p < 2 ^ 256 := (red_lt a).trans p_lt_256

/-- A command that writes v to F register d and retires has left r there, when v is r. -/
theorem retiresF_of_exec {i : Instr} {s : State} {d : FIdx} {v r : Nat} (hexec : exec i s = .next (s.finishF d v))
    (hv : v = r) (hr : r < 2 ^ 256) : ∃ t, exec i s = .next t ∧ RetiredF d r s t :=
  ⟨_, hexec, hv ▸ finishF_spec s d (hv ▸ hr)⟩

/-- Settles O10: the sum of the reduced operands is the sum mod p. -/
theorem faddGivesSumModP : Obligations.FaddGivesSumModP := fun _ _ _ _ =>
  ⟨encoded_of_wellFormed rfl, retiresF_of_exec rfl (fadd_red _ _) (mod_p_lt_256 _)⟩

/-- Settles O11: FSUB's result is a remainder of the integer difference, so it is below p and never negative. -/
theorem fsubGivesDifferenceModP : Obligations.FsubGivesDifferenceModP := by
  intro d a b s
  have hlt : fsub (s.redF a) (s.redF b) < Config.p := fsub_lt _ _
  exact ⟨encoded_of_wellFormed rfl, _, _, rfl, finishF_spec s d (hlt.trans p_lt_256), hlt, fsub_red _ _⟩

/-- Settles O12: the product of the reduced operands is the product mod p. -/
theorem fmulGivesProductModP : Obligations.FmulGivesProductModP := fun _ _ _ _ =>
  ⟨encoded_of_wellFormed rfl, retiresF_of_exec rfl (fmul_red _ _) (mod_p_lt_256 _)⟩

/-- Settles O15: the base is reduced, the exponent is the whole register, which the 256 squarings cover. -/
theorem fexpGivesPowerModP : Obligations.FexpGivesPowerModP := fun _ _ b s =>
  ⟨encoded_of_wellFormed rfl, retiresF_of_exec rfl (fpow_red _ (natF_lt s b)) (mod_p_lt_256 _)⟩

/-- Settles O17: the reduced operand is the result. -/
theorem fredReducesModP : Obligations.FredReducesModP := fun _ _ _ =>
  ⟨encoded_of_wellFormed rfl, retiresF_of_exec rfl rfl (mod_p_lt_256 _)⟩

/-! ### The modulus of FEXPM (R71) -/

theorem overrideModulus_zero : overrideModulus 0 = Config.p := if_pos rfl

theorem overrideModulus_of_ne {m : Nat} (h : m ≠ 0) : overrideModulus m = m := if_neg h

/-- FEXPM modulo the modulus in use, whichever it is. -/
theorem fexpm_retires (d a b m : FIdx) (s : State) {n : Nat} (hn : overrideModulus (s.natF m) = n) (hpos : 0 < n)
    (hle : n ≤ 2 ^ 256) : ∃ t, exec (.fexpm d a b m) s = .next t ∧ RetiredF d (s.natF a ^ s.natF b % n) s t := by
  subst hn
  exact retiresF_of_exec rfl (powMod_mod _ _ (natF_lt s b)) ((Nat.mod_lt _ hpos).trans_le hle)

/-- Settles O16: the modulus in use is p for override 0 and the override's own value otherwise. -/
theorem fexpmGivesPowerModOverride : Obligations.FexpmGivesPowerModOverride := fun d a b m s =>
  ⟨encoded_of_wellFormed rfl,
    fun h0 => fexpm_retires d a b m s (h0 ▸ overrideModulus_zero) p_pos p_lt_256.le,
    fun h0 => fexpm_retires d a b m s (overrideModulus_of_ne h0) (Nat.pos_of_ne_zero h0) (natF_lt s m).le⟩

/-! ### The commands that check for zero (R68, R69) -/

theorem redF_eq_zero_iff {s : State} {i : FIdx} : s.redF i = 0 ↔ Config.p ∣ s.natF i := Nat.dvd_iff_mod_eq_zero.symm

theorem fdiv_raises {b : FIdx} {s : State} (h : Config.p ∣ s.natF b) (d a : FIdx) :
    exec (.fdiv d a b) s = .next (s.raise .divByZero) := if_pos (redF_eq_zero_iff.mpr h)

theorem fdiv_retires {b : FIdx} {s : State} (h : ¬ Config.p ∣ s.natF b) (d a : FIdx) :
    ∃ t, exec (.fdiv d a b) s = .next t ∧ RetiredF d (s.natF a * s.natF b ^ (Config.p - 2) % Config.p) s t :=
  retiresF_of_exec (if_neg (redF_eq_zero_iff.not.mpr h)) (fdiv_red _ _) (mod_p_lt_256 _)

theorem finv_raises {a : FIdx} {s : State} (h : Config.p ∣ s.natF a) (d : FIdx) :
    exec (.finv d a) s = .next (s.raise .divByZero) := if_pos (redF_eq_zero_iff.mpr h)

theorem finv_retires {a : FIdx} {s : State} (h : ¬ Config.p ∣ s.natF a) (d : FIdx) :
    ∃ t, exec (.finv d a) s = .next t ∧ RetiredF d (s.natF a ^ (Config.p - 2) % Config.p) s t :=
  retiresF_of_exec (if_neg (redF_eq_zero_iff.not.mpr h)) (finv_red _) (mod_p_lt_256 _)

/-- Settles O13: the two branches of FDIV's check of the divisor. -/
theorem fdivMultipliesByPowerOrRaises : Obligations.FdivMultipliesByPowerOrRaises := fun d a _ s _ hw =>
  ⟨encoded_of_wellFormed rfl, rfl, fun h => fdiv_retires h d a, fun h => ⟨_, fdiv_raises h d a, raise_spec s _ hw⟩⟩

/-- Settles O14: the two branches of FINV's check of the operand. -/
theorem finvGivesPowerOrRaises : Obligations.FinvGivesPowerOrRaises := fun d _ s _ hw =>
  ⟨encoded_of_wellFormed rfl, rfl, fun h => finv_retires h d, fun h => ⟨_, finv_raises h d, raise_spec s _ hw⟩⟩

/-! ### The laws of the inverse (R74) -/

/-- The power to p - 2 is the inverse mod p, p being prime, so multiplying by b undoes multiplying by it. -/
theorem mul_pow_p_sub_two_mul_mod {b : Nat} (h : ¬ Config.p ∣ b) (a : Nat) :
    a * b ^ (Config.p - 2) % Config.p * b % Config.p = a % Config.p := by
  have : Fact (Nat.Prime Config.p) := ⟨p_prime⟩
  have hb : (b : ZMod Config.p) ≠ 0 := (ZMod.natCast_eq_zero_iff b _).not.mpr h
  rw [← ZMod.natCast_eq_natCast_iff', Nat.cast_mul, ZMod.natCast_mod, Nat.cast_mul, Nat.cast_pow, pow_p_sub_two _ hb,
    inv_mul_cancel_right₀ hb]

/-- What FMUL leaves in its destination when it follows a command that answered t (R67). -/
theorem execTwo_fmul {i : Instr} {s t : State} (h : exec i s = .next t) (e a b : FIdx) :
    ∃ u, execTwo i (.fmul e a b) s = .next u ∧ u.natF e = t.natF a * t.natF b % Config.p := by
  obtain ⟨-, u, hu, hretired⟩ := fmulGivesProductModP e a b t
  exact ⟨u, (execTwo_of_next h _).trans hu, hretired.value⟩

/-- Settles O18: the operand survives FINV, and its product with its inverse is 1 mod p. -/
theorem finvThenFmulGivesOne : Obligations.FinvThenFmulGivesOne := by
  intro d a e s hda hnz
  obtain ⟨t, ht, hval, hframe, -⟩ := finv_retires hnz d
  obtain ⟨u, hu, hprod⟩ := execTwo_fmul ht e a d
  refine ⟨u, hu, ?_⟩
  calc u.natF e = s.natF a * (s.natF a ^ (Config.p - 2) % Config.p) % Config.p := by
        rw [hprod, hval, natF_of_onlyF hframe hda.symm]
    _ = 1 * s.natF a ^ (Config.p - 2) % Config.p * s.natF a % Config.p := by rw [mul_comm, one_mul]
    _ = 1 % Config.p := mul_pow_p_sub_two_mul_mod hnz 1
    _ = 1 := Nat.mod_eq_of_lt p_prime.one_lt

/-- Settles O19: the divisor survives FDIV, and multiplying by it undoes the division mod p. -/
theorem fdivThenFmulGivesDividend : Obligations.FdivThenFmulGivesDividend := by
  intro d a b e s hdb hnz
  obtain ⟨t, ht, hval, hframe, -⟩ := fdiv_retires hnz d a
  obtain ⟨u, hu, hprod⟩ := execTwo_fmul ht e d b
  refine ⟨u, hu, ?_⟩
  rw [hprod, hval, natF_of_onlyF hframe hdb.symm]
  exact mul_pow_p_sub_two_mul_mod hnz _

end Sys2Proof.Laws
end

section
/-! The slope through two points of the curve unit (R76, R77). What the tangent and the chord give, as equations
in the field of integers modulo p; both end in the same two lines of field arithmetic. -/

namespace Sys2Proof.Laws

open Sys2Proof.Machine

/-! ### In the field of integers modulo p -/

/-- A slope, multiplied by its divisor, is its dividend: p is prime, so the power to p - 2 is the inverse (R74). -/
theorem fdiv_mul_cancel_zmod (a : Nat) {b : Nat} (h : (b : ZMod Config.p) ≠ 0) : (fdiv a b : ZMod Config.p) * b = a := by
  have : Fact (Nat.Prime Config.p) := ⟨p_prime⟩
  rw [fdiv_zmod, pow_p_sub_two _ h, inv_mul_cancel_right₀ h]

theorem natCast_zmod_ne_zero {a : Nat} (hpos : 0 < a) (hlt : a < Config.p) : (a : ZMod Config.p) ≠ 0 := fun h =>
  Nat.not_dvd_of_pos_of_lt hpos hlt ((ZMod.natCast_eq_zero_iff a _).mp h)

/-- The divisor of the tangent's slope: p is odd and y is not 0 (R76). -/
theorem fmul_two_zmod_ne_zero {y : Nat} (hpos : 0 < y) (hlt : y < Config.p) : (fmul 2 y : ZMod Config.p) ≠ 0 := by
  have : Fact (Nat.Prime Config.p) := ⟨p_prime⟩
  rw [fmul_zmod]
  exact mul_ne_zero (natCast_zmod_ne_zero two_pos (by decide)) (natCast_zmod_ne_zero hpos hlt)

/-- The divisor of the chord's slope (R77). -/
theorem fsub_zmod_ne_zero {a b : Nat} (ha : a < Config.p) (hb : b < Config.p) (h : a ≠ b) :
    (fsub b a : ZMod Config.p) ≠ 0 := by
  rw [fsub_zmod, sub_ne_zero]
  exact fun hba => h (eq_of_zmod ha hb hba.symm)

/-- The two congruences of `SlopeSum` as equations. -/
theorem slopeSum_iff {l x1 y1 x2 x3 y3 : Nat} : SlopeSum l x1 y1 x2 x3 y3 ↔ x3 < Config.p ∧ y3 < Config.p ∧
    (x3 + x1 + x2 : ZMod Config.p) = l ^ 2 ∧ (y3 + y1 + l * x3 : ZMod Config.p) = l * x1 := by
  have hx := ZMod.natCast_eq_natCast_iff' (x3 + x1 + x2) (l ^ 2) Config.p
  have hy := ZMod.natCast_eq_natCast_iff' (y3 + y1 + l * x3) (l * x1) Config.p
  push_cast at hx hy
  rw [hx, hy]
  exact ⟨fun ⟨h1, h2, h3, h4⟩ => ⟨h1, h2, h3, h4⟩, fun ⟨h1, h2, h3, h4⟩ => ⟨h1, h2, h3, h4⟩⟩

/-- The curve equation as an equation in the field. -/
theorem onCurve_aff_iff {x y : Nat} : (Point.aff x y).OnCurve ↔ x < Config.p ∧ y < Config.p ∧
    (y : ZMod Config.p) ^ 2 = x ^ 3 + Config.curveB := by
  have h := ZMod.natCast_eq_natCast_iff' (y ^ 2) (x ^ 3 + Config.curveB) Config.p
  push_cast at h
  rw [h]

theorem canonical_of_onCurve {q : Point} (h : q.OnCurve) : q.Canonical := by
  cases q with
  | inf => trivial
  | aff x y => exact ⟨h.1, h.2.1⟩

theorem generator_onCurve : generator.OnCurve := by
  unfold generator
  decide

/-! ### The point functions -/

/-- The last two lines of R76 and R77: the third point, whichever way its x coordinate was computed. -/
theorem slopeSum_of_x {l x1 x2 x3 : Nat} (hlt : x3 < Config.p) (hx : (x3 : ZMod Config.p) = l ^ 2 - x1 - x2) (y1 : Nat) :
    SlopeSum l x1 y1 x2 x3 (fsub (fmul l (fsub x1 x3)) y1) := by
  refine slopeSum_iff.mpr ⟨hlt, fsub_lt _ _, by rw [hx]; ring, ?_⟩
  rw [fsub_zmod, fmul_zmod, fsub_zmod]
  ring

/-- What the tangent gives (R76). -/
theorem pdbl_tangent (x : Nat) {y : Nat} (hpos : 0 < y) (hlt : y < Config.p) : ∃ l x3 y3,
    pdbl (.aff x y) = .aff x3 y3 ∧ l < Config.p ∧ (l * (2 * y) : ZMod Config.p) = 3 * x ^ 2 ∧ SlopeSum l x y x x3 y3 := by
  refine ⟨fdiv (fmul 3 (fmul x x)) (fmul 2 y), _, _, if_neg hpos.ne', fdiv_lt _ _, ?_, slopeSum_of_x (fsub_lt _ _) ?_ y⟩
  · have h := fdiv_mul_cancel_zmod (fmul 3 (fmul x x)) (fmul_two_zmod_ne_zero hpos hlt)
    simpa only [fmul_zmod, ← pow_two, Nat.cast_ofNat] using h
  · rw [fsub_zmod, fmul_zmod, fadd_zmod]
    ring

/-- What the chord gives (R77). -/
theorem padd_chord {x1 x2 : Nat} (h1 : x1 < Config.p) (h2 : x2 < Config.p) (hne : x1 ≠ x2) (y1 y2 : Nat) : ∃ l x3 y3,
    padd (.aff x1 y1) (.aff x2 y2) = .aff x3 y3 ∧ l < Config.p ∧ (l * x2 + y1 : ZMod Config.p) = l * x1 + y2 ∧
      SlopeSum l x1 y1 x2 x3 y3 := by
  refine ⟨fdiv (fsub y2 y1) (fsub x2 x1), _, _, (if_neg (hne ∘ And.left)).trans (if_neg hne), fdiv_lt _ _, ?_,
    slopeSum_of_x (fsub_lt _ _) ?_ y1⟩
  · have h := fdiv_mul_cancel_zmod (fsub y2 y1) (fsub_zmod_ne_zero h1 h2 hne)
    rw [fsub_zmod, fsub_zmod] at h
    linear_combination h
  · rw [fsub_zmod, fsub_zmod, fmul_zmod]
    ring

/-- Equal points double (R77). -/
theorem padd_self (q : Point) : padd q q = pdbl q := by
  cases q with
  | inf => rfl
  | aff x y => exact if_pos ⟨rfl, rfl⟩

theorem padd_inf_left (q : Point) : padd .inf q = q := by
  cases q <;> rfl

theorem padd_inf_right (q : Point) : padd q .inf = q := by
  cases q <;> rfl

/-- Same x, different y (R77). -/
theorem padd_vertical (x : Nat) {y1 y2 : Nat} (hne : y1 ≠ y2) : padd (.aff x y1) (.aff x y2) = .inf :=
  (if_neg fun h => hne h.2).trans (if_pos rfl)

end Sys2Proof.Laws
end

section
/-! The commands of the curve unit one by one (R79-R85), read off the point functions. -/

namespace Sys2Proof.Laws

open Sys2Proof.Machine

/-! ### Retiring with a point -/

/-- Retiring with a P destination, whatever becomes of the ladder. -/
theorem finishP_ladder_spec (s : State) (d : PIdx) (r : PReg) (l : Ladder) :
    RetiredP d r s ({ s with ladder := l }.finishP d r) :=
  ⟨(finishP_spec { s with ladder := l } d r).value, finishP_frame s d r l,
    ⟨rfl, rfl, ⟨rfl, rfl, rfl⟩, ⟨rfl, rfl, rfl⟩⟩⟩

/-- A command that writes the point q to P register d and retires, with what is known of q; the ladder stays. -/
theorem retiresP_of_exec {i : Instr} {s : State} {d : PIdx} {q : Point} {C : PReg → Prop}
    (hexec : exec i s = .next (s.finishP d q.toPReg)) (hC : C q.toPReg) :
    ∃ t r, exec i s = .next t ∧ RetiredP d r s t ∧ t.ladder = s.ladder ∧ C r :=
  ⟨_, _, hexec, finishP_spec s d _, rfl, hC⟩

/-- Settles O21: the coordinates 1 and 2 as stored. -/
theorem pgenLoadsGenerator : Obligations.PgenLoadsGenerator := fun d s =>
  ⟨encoded_of_wellFormed rfl, _, rfl, finishP_spec s d _, rfl⟩

/-! ### PSET (R80) -/

/-- How a pair of coordinates below p is stored: as INF if both are 0, and as it is if not. -/
theorem pairPoint_toPReg {x y : Nat} (hx : x < Config.p) (hy : y < Config.p) :
    (x = 0 ∧ y = 0 → (pairPoint x y).toPReg = ⟨true, 0#256, 0#256⟩) ∧
      (¬ (x = 0 ∧ y = 0) → (pairPoint x y).toPReg.inf = false ∧ (pairPoint x y).toPReg.x.toNat = x ∧
        (pairPoint x y).toPReg.y.toNat = y) := by
  constructor <;> intro h
  · rw [pairPoint, if_pos h]
    rfl
  · rw [pairPoint, if_neg h]
    exact ⟨rfl, toNat_ofNat_of_lt_p hx, toNat_ofNat_of_lt_p hy⟩

/-- Settles O22: a reduced coordinate is 0 exactly if p divides the register. -/
theorem psetStoresReducedPair : Obligations.PsetStoresReducedPair := by
  intro d a b s
  refine ⟨encoded_of_wellFormed rfl, retiresP_of_exec rfl ?_⟩
  rw [← redF_eq_zero_iff, ← redF_eq_zero_iff]
  exact pairPoint_toPReg (red_lt _) (red_lt _)

/-! ### PX and PY (R81, R82) -/

/-- The value of a stored register is INF by its inf bit, and else the pair of its coordinates. -/
theorem pointP_of_inf {s : State} {a : PIdx} (h : (s.readP a).inf = true) : s.pointP a = .inf := if_pos h

theorem pointP_of_not_inf {s : State} {a : PIdx} (h : (s.readP a).inf = false) :
    s.pointP a = .aff (s.readP a).x.toNat (s.readP a).y.toNat := if_neg (ne_true_of_eq_false h)

/-- Settles O23: by the inf bit. -/
theorem pxReadsXCoordinate : Obligations.PxReadsXCoordinate := fun _ _ _ =>
  ⟨encoded_of_wellFormed rfl,
    fun h => retiresF_of_exec rfl (congrArg Point.xOut (pointP_of_inf h)) (Nat.two_pow_pos 256),
    fun h => retiresF_of_exec rfl (congrArg Point.xOut (pointP_of_not_inf h)) (BitVec.isLt _)⟩

/-- Settles O24: by the inf bit. -/
theorem pyReadsYCoordinate : Obligations.PyReadsYCoordinate := fun _ _ _ =>
  ⟨encoded_of_wellFormed rfl,
    fun h => retiresF_of_exec rfl (congrArg Point.yOut (pointP_of_inf h)) (Nat.two_pow_pos 256),
    fun h => retiresF_of_exec rfl (congrArg Point.yOut (pointP_of_not_inf h)) (BitVec.isLt _)⟩

/-! ### PDBL (R83) -/

/-- -3 is no cube mod p: its power to (p - 1) / 3 is not 1. -/
theorem pow_third_of_neg_three_ne_one : (-3 : ZMod Config.p) ^ ((Config.p - 1) / 3) ≠ 1 := by
  have hneg : ((Config.p - 3 : Nat) : ZMod Config.p) = -3 := by
    rw [Nat.cast_sub (by decide), ZMod.natCast_self, zero_sub, Nat.cast_ofNat]
  have hpow : fpow (Config.p - 3) ((Config.p - 1) / 3) ≠ 1 := by decide +kernel
  intro h
  refine hpow (eq_of_zmod (fpow_lt _ _) p_prime.one_lt ?_)
  rw [fpow_eq _ _ (by decide), ZMod.natCast_mod, Nat.cast_pow, hneg, h, Nat.cast_one]

/-- No point of the curve has y = 0 (R83). -/
theorem not_onCurve_y_zero (x : Nat) : ¬ (Point.aff x 0).OnCurve := by
  have : Fact (Nat.Prime Config.p) := ⟨p_prime⟩
  intro h
  obtain ⟨-, -, heq⟩ := onCurve_aff_iff.mp h
  have hcube : (x : ZMod Config.p) ^ 3 = -3 := by
    rw [Config.curveB] at heq
    push_cast at heq
    linear_combination -heq
  have hx : (x : ZMod Config.p) ≠ 0 := by
    intro h0
    have h3 := natCast_zmod_ne_zero (a := 3) (by decide) (by decide)
    exact h3 (by simpa [h0] using hcube)
  apply pow_third_of_neg_three_ne_one
  rw [← hcube, ← pow_mul, show 3 * ((Config.p - 1) / 3) = Config.p - 1 by decide, ZMod.pow_card_sub_one_eq_one hx]

/-- Settles O25: the three branches of the point doubling. -/
theorem pdblGivesTangentPoint : Obligations.PdblGivesTangentPoint := by
  intro d a s
  refine ⟨encoded_of_wellFormed rfl, retiresP_of_exec rfl ?_⟩
  rw [toPoint_toPReg (pdbl_canonical _)]
  refine ⟨fun hinf => by rw [hinf]; rfl, fun x hx => ?_, fun x y hxy _ hpos hlt => ?_⟩
  · rw [hx]
    exact ⟨rfl, not_onCurve_y_zero x⟩
  · obtain ⟨l, x3, y3, hdbl, hl, hslope, hsum⟩ := pdbl_tangent x hpos hlt
    refine ⟨l, x3, y3, hxy ▸ hdbl, hl, (ZMod.natCast_eq_natCast_iff' _ _ _).mp ?_, hsum⟩
    push_cast
    exact hslope

/-! ### PADD (R84) -/

/-- Settles O26: the branches of the point addition. -/
theorem paddGivesChordPoint : Obligations.PaddGivesChordPoint := by
  intro d a b s
  refine ⟨encoded_of_wellFormed rfl, retiresP_of_exec rfl ⟨fun ha => ?_, fun hb => ?_, fun hab => ?_,
    fun x y1 y2 ha hb hne => ?_, fun x1 y1 x2 y2 ha hb hne hx1 _ hx2 _ => ?_⟩⟩
  · rw [ha, padd_inf_left]
  · rw [hb, padd_inf_right]
  · rw [hab, padd_self]
  · rw [ha, hb, padd_vertical x hne]
    rfl
  · obtain ⟨l, x3, y3, hadd, hl, hslope, hsum⟩ := padd_chord hx1 hx2 hne y1 y2
    refine ⟨l, x3, y3, ?_, hl, (ZMod.natCast_eq_natCast_iff' _ _ _).mp ?_, hsum⟩
    · rw [ha, hb, hadd, toPoint_toPReg (q := .aff x3 y3) ⟨hsum.x_lt, hsum.y_lt⟩]
    · push_cast
      exact hslope

/-! ### PMUL (R85) -/

/-- Scalar multiplication as the fold over all 256 iterations. -/
theorem pmul_eq_ladderFold (q : Point) (n : Nat) : pmul q n = (ladderFold q n).1 := by
  rw [pmul_eq_ladder, ladderOf, ladderRun_eq_fold, ladderFold, List.range_eq_range']

/-- Settles O27: the early return changes no result, and the 256 iterations are the fold. -/
theorem pmulGivesLadderResult : Obligations.PmulGivesLadderResult := fun d a b s =>
  ⟨encoded_of_wellFormed rfl, _, rfl, pmul_eq_ladderFold (s.pointP a) (s.natF b) ▸ finishP_ladder_spec s d _ _⟩

end Sys2Proof.Laws
end

section
/-! The group law: the ladder on small and on even scalars, the symmetry of addition (R86). -/

namespace Sys2Proof.Laws

open Sys2Proof.Machine

/-! ### Even scalars -/

/-- The bits of 2n lie one place above the bits of n. -/
theorem ladderRun_two_mul_result (n : Nat) : ∀ (k i : Nat) (r a : Point),
    (ladderRun (2 * n) k ⟨r, a, i + 1⟩).result = (ladderRun n k ⟨r, a, i⟩).result
  | 0, _, _, _ => rfl
  | k + 1, i, r, a => by
    have hbit : (2 * n).testBit (i + 1) = n.testBit i := by simp [Nat.testBit_succ]
    simp only [ladderRun, ladderStep, hbit]
    exact ladderRun_two_mul_result n k _ _ _

theorem ladderRun_index (n : Nat) : ∀ (k : Nat) (l : LadderVals), (ladderRun n k l).index = l.index + k
  | 0, _ => rfl
  | k + 1, l => by
    rw [ladderRun, ladderRun_index n k]
    exact Nat.add_right_comm l.index 1 k

/-- For a scalar below 2^k, k iterations give the result. -/
theorem pmul_eq_ladderRun (q : Point) {n k : Nat} (hk : k ≤ 256) (h : n < 2 ^ k) :
    pmul q n = (ladderRun n k ⟨.inf, q, 0⟩).result := by
  have hbits : ∀ i, (ladderRun n k ⟨.inf, q, 0⟩).index ≤ i → n.testBit i = false := fun i hi => by
    rw [ladderRun_index] at hi
    exact Nat.testBit_lt_two_pow (h.trans_le (Nat.pow_le_pow_right two_pos (by omega)))
  rw [pmul_eq_ladder, ladderOf, show Config.mulIters = k + (256 - k) by rw [Config.mulIters]; omega, ladderRun_add,
    ladderRun_result_of_no_bits n _ _ hbits]

/-- Settles O29: bit 0 of 2n is clear, so the first iteration only doubles the addend. -/
theorem evenScalarMultipliesDoubledPoint : Obligations.EvenScalarMultipliesDoubledPoint := by
  intro q n hn
  have hstep : ladderStep (2 * n) ⟨.inf, q, 0⟩ = ⟨.inf, pdbl q, 1⟩ := by simp [ladderStep]
  calc pmul q (2 * n) = (ladderRun (2 * n) 255 (ladderStep (2 * n) ⟨.inf, q, 0⟩)).result :=
        pmul_eq_ladderRun q (k := 256) le_rfl (by omega)
    _ = (ladderRun n 255 ⟨.inf, pdbl q, 0⟩).result := by rw [hstep, ladderRun_two_mul_result]
    _ = pmul (pdbl q) n := (pmul_eq_ladderRun _ (by decide) hn).symm

/-! ### The identities -/

/-- Addition is symmetric: chord, slope and third point are the same from either end (R86). -/
theorem padd_comm {q r : Point} (hq : q.Canonical) (hr : r.Canonical) : padd q r = padd r q := by
  have : Fact (Nat.Prime Config.p) := ⟨p_prime⟩
  match q, r with
  | .inf, r => rw [padd_inf_left, padd_inf_right]
  | q, .inf => rw [padd_inf_left, padd_inf_right]
  | .aff x1 y1, .aff x2 y2 =>
    rcases eq_or_ne x1 x2 with rfl | hx
    · rcases eq_or_ne y1 y2 with rfl | hy
      · rfl
      · rw [padd_vertical x1 hy, padd_vertical x1 hy.symm]
    · obtain ⟨l, x3, y3, hadd, hl, hslope, hsum⟩ := padd_chord hq.1 hr.1 hx y1 y2
      obtain ⟨m, x3', y3', hadd', hm, hslope', hsum'⟩ := padd_chord hr.1 hq.1 hx.symm y2 y1
      obtain ⟨hx3, hy3, hsumx, hsumy⟩ := slopeSum_iff.mp hsum
      obtain ⟨hx3', hy3', hsumx', hsumy'⟩ := slopeSum_iff.mp hsum'
      have hdiff : (x2 - x1 : ZMod Config.p) ≠ 0 := sub_ne_zero.mpr fun h => hx (eq_of_zmod hr.1 hq.1 h).symm
      have hlm : l = m := eq_of_zmod hl hm (mul_right_cancel₀ hdiff (by linear_combination hslope + hslope'))
      subst hlm
      have hxx : x3 = x3' := eq_of_zmod hx3 hx3' (by linear_combination hsumx - hsumx')
      subst hxx
      have hyy : y3 = y3' := eq_of_zmod hy3 hy3' (by linear_combination hsumy - hsumy' - hslope)
      rw [hadd, hadd', hyy]

/-- The scalar 3 adds the point and then its double. -/
theorem pmul_three_eq (q : Point) : pmul q 3 = padd q (pdbl q) := by
  rw [pmul_eq_ladderRun q (k := 2) (by decide) (by decide)]
  simp [ladderRun, ladderStep, padd_inf_left, Nat.testBit_succ]

/-- Settles O28: the ladder on 0, 1, 2 and 3, and the branches of the point addition. -/
theorem groupLawIdentities : Obligations.GroupLawIdentities := by
  refine ⟨fun q => ⟨padd_inf_right q, pmul_one_eq q, rfl, (padd_self q).symm⟩, ?_, ?_, fun _ _ => padd_comm⟩
  · rw [evenScalarMultipliesDoubledPoint generator 1 (by decide), pmul_one_eq]
  · rw [pmul_three_eq, padd_comm (canonical_of_onCurve generator_onCurve) (pdbl_canonical _)]

end Sys2Proof.Laws
end

section
/-! The curve is closed under the point functions, and so under every command but PSET of an off-curve pair (R87). -/

namespace Sys2Proof.Laws

open Sys2Proof.Machine

/-! ### The third point of a line -/

/-- A line of slope l through (x1, y1) and (x2, y2), a tangent where the two agree, meets the curve y^2 = x^3 + c again in a point
whose reflection is (x3, y3): if the first point is on the curve, so is the third. -/
theorem third_point_on_curve {R : Type*} [CommRing R] {c l x1 y1 x2 y2 x3 y3 : R} (hcurve : y1 ^ 2 = x1 ^ 3 + c)
    (hline : l * x2 + y1 = l * x1 + y2) (hslope : l * (y1 + y2) = x1 ^ 2 + x1 * x2 + x2 ^ 2)
    (hx : x3 + x1 + x2 = l ^ 2) (hy : y3 + y1 + l * x3 = l * x1) : y3 ^ 2 = x3 ^ 3 + c := by
  obtain rfl : y3 = l * (x1 - x3) - y1 := by linear_combination hy
  obtain rfl : y2 = y1 + l * (x2 - x1) := by linear_combination -hline
  linear_combination hcurve - (x1 - x3) * hslope - (x1 - x3) * (x2 - x3) * hx

/-- The same for the point functions' result. -/
theorem onCurve_of_slopeSum {l x1 y1 x2 y2 x3 y3 : Nat} (hcurve : (Point.aff x1 y1).OnCurve)
    (hline : (l * x2 + y1 : ZMod Config.p) = l * x1 + y2)
    (hslope : (l * (y1 + y2) : ZMod Config.p) = x1 ^ 2 + x1 * x2 + x2 ^ 2) (hsum : SlopeSum l x1 y1 x2 x3 y3) :
    (Point.aff x3 y3).OnCurve := by
  obtain ⟨hx3, hy3, hx, hy⟩ := slopeSum_iff.mp hsum
  obtain ⟨-, -, heq⟩ := onCurve_aff_iff.mp hcurve
  exact onCurve_aff_iff.mpr ⟨hx3, hy3, third_point_on_curve heq hline hslope hx hy⟩

/-- Doubling stays on the curve. -/
theorem pdbl_onCurve {q : Point} (hq : q.OnCurve) : (pdbl q).OnCurve := by
  cases q with
  | inf => trivial
  | aff x y =>
    rcases Nat.eq_zero_or_pos y with rfl | hpos
    · exact absurd hq (not_onCurve_y_zero x)
    · obtain ⟨l, x3, y3, hdbl, -, hslope, hsum⟩ := pdbl_tangent x hpos hq.2.1
      rw [hdbl]
      exact onCurve_of_slopeSum hq rfl (by linear_combination hslope) hsum

/-- Addition stays on the curve: the difference of two curve equations, divided by x2 - x1, is the chord's relation. -/
theorem padd_onCurve {q r : Point} (hq : q.OnCurve) (hr : r.OnCurve) : (padd q r).OnCurve := by
  have : Fact (Nat.Prime Config.p) := ⟨p_prime⟩
  match q, r with
  | .inf, r => rwa [padd_inf_left]
  | q, .inf => rwa [padd_inf_right]
  | .aff x1 y1, .aff x2 y2 =>
    rcases eq_or_ne x1 x2 with rfl | hx
    · rcases eq_or_ne y1 y2 with rfl | hy
      · rw [padd_self]
        exact pdbl_onCurve hq
      · rw [padd_vertical x1 hy]
        trivial
    · obtain ⟨hx1, -, heq1⟩ := onCurve_aff_iff.mp hq
      obtain ⟨hx2, -, heq2⟩ := onCurve_aff_iff.mp hr
      obtain ⟨l, x3, y3, hadd, -, hline, hsum⟩ := padd_chord hx1 hx2 hx y1 y2
      have hdiff : (x2 - x1 : ZMod Config.p) ≠ 0 := sub_ne_zero.mpr fun h => hx (eq_of_zmod hx2 hx1 h).symm
      rw [hadd]
      refine onCurve_of_slopeSum hq hline (mul_right_cancel₀ hdiff ?_) hsum
      linear_combination (y1 + y2 : ZMod Config.p) * hline + heq2 - heq1

/-- So does scalar multiplication. -/
theorem pmul_onCurve {q : Point} (hq : q.OnCurve) (n : Nat) : (pmul q n).OnCurve :=
  pmul_keeps (C := Point.OnCurve) trivial (fun _ => pdbl_onCurve) (fun _ _ => padd_onCurve) hq n

/-- The pair PSET reads is on the curve if the registers, reduced or not, meet its equation. -/
theorem pairPoint_onCurve {a b : Nat} (h : b ^ 2 % Config.p = (a ^ 3 + Config.curveB) % Config.p) :
    (pairPoint (red a) (red b)).OnCurve := by
  unfold pairPoint
  split
  · trivial
  · refine ⟨red_lt _, red_lt _, ?_⟩
    rw [red, red, ← Nat.pow_mod, h, Nat.add_mod, Nat.pow_mod, ← Nat.add_mod]

/-! ### The commands -/

/-- Retiring with a point of the curve leaves only points of the curve. -/
theorem finishP_onCurve {s : State} (h : ∀ j, (s.pointP j).OnCurve) (d : PIdx) {q : Point} (hq : q.OnCurve) (l : Ladder)
    (j : PIdx) : (({ s with ladder := l }.finishP d q.toPReg).pointP j).OnCurve := by
  obtain ⟨hvalue, ⟨-, hframe⟩, -⟩ := finishP_ladder_spec s d q.toPReg l
  rw [State.pointP]
  rcases eq_or_ne j d with rfl | hj
  · rwa [hvalue, toPoint_toPReg (canonical_of_onCurve hq)]
  · rw [hframe j hj]
    exact h j

/-- Settles O30: PGEN, PDBL, PADD, PMUL and PSET of an on-curve pair write a point of the curve, and no other command writes a
P register. -/
theorem commandsKeepPointsOnCurve : Obligations.CommandsKeepPointsOnCurve := by
  intro i s t hpoints hpset hexec
  cases i with
  | pgen d => cases hexec; exact finishP_onCurve hpoints d generator_onCurve s.ladder
  | pset d a b => cases hexec; exact finishP_onCurve hpoints d (pairPoint_onCurve (hpset d a b rfl)) s.ladder
  | pdbl d a => cases hexec; exact finishP_onCurve hpoints d (pdbl_onCurve (hpoints a)) s.ladder
  | padd d a b => cases hexec; exact finishP_onCurve hpoints d (padd_onCurve (hpoints a) (hpoints b)) s.ladder
  | pmul d a b => cases hexec; exact finishP_onCurve hpoints d (pmul_onCurve (hpoints a) _) _
  | _ =>
    obtain ⟨hsame, -⟩ := onlyPointCommandsWritePRegisters _ s t hexec (by simp [Instr.op])
    intro j
    rw [State.pointP, hsame j]
    exact hpoints j

end Sys2Proof.Laws
end

section
/-! The bit-packing unit (R88-R95). Operands are read as they stand. Each command that checks the range of its source has a lemma
per outcome of the check; the words and halves of a register are its number divided and reduced by powers of 2. -/

namespace Sys2Proof.Laws

open Sys2Proof.Machine

/-! ### BITS and BREV (R89, R90) -/

theorem bits_retires {a : FIdx} {n : Nat} {s : State} (h : s.natF a < 2 ^ n) (d : FIdx) :
    ∃ t, exec (.bits d a n) s = .next t ∧ RetiredF d (s.natF a) s t :=
  retiresF_of_exec (if_neg h.not_ge) rfl (natF_lt s a)

theorem bits_raises {a : FIdx} {n : Nat} {s : State} (h : 2 ^ n ≤ s.natF a) (d : FIdx) :
    exec (.bits d a n) s = .next (s.raise .encodingRange) := if_pos h

theorem brev_raises {a : FIdx} {n : Nat} {s : State} (h : 2 ^ n ≤ s.natF a) (d : FIdx) :
    exec (.brev d a n) s = .next (s.raise .encodingRange) := if_pos h

/-- BREV of a source that fits retires with its low n bits reversed. -/
theorem brev_retires {a : FIdx} {n : Nat} {s : State} (hn : WidthOk n) (h : s.natF a < 2 ^ n) (d : FIdx) :
    ∃ t, exec (.brev d a n) s = .next t ∧ RetiredF d (reverseBits n (s.natF a)) s t :=
  retiresF_of_exec (if_neg h.not_ge) rfl ((reverseBits_lt n _).trans_le (Nat.pow_le_pow_right Nat.two_pos hn.2))

/-- Settles O31: the two branches of the range check. -/
theorem bitsCopiesOrRaises : Obligations.BitsCopiesOrRaises := fun d _ _ s _ hn hw =>
  ⟨encoded_of_wellFormed (decide_eq_true hn), rfl, fun h => bits_retires h d,
    fun h => ⟨_, bits_raises h d, raise_spec s _ hw⟩⟩

theorem reverseBits_testBit_of_lt {n j : Nat} (h : j < n) (v : Nat) :
    (reverseBits n v).testBit j = v.testBit (n - 1 - j) := by
  rw [reverseBits_testBit, decide_eq_true h, Bool.true_and]

/-- Settles O32: the two branches of the range check; bit j of the reversal is bit n-1-j of the source. -/
theorem brevReversesBitsOrRaises : Obligations.BrevReversesBitsOrRaises := by
  intro d a n s w hn hw
  refine ⟨encoded_of_wellFormed (decide_eq_true hn), rfl, fun h => ?_, fun h => ⟨_, brev_raises h d, raise_spec s _ hw⟩⟩
  obtain ⟨t, ht, hretired⟩ := brev_retires hn h d
  exact ⟨t, _, ht, hretired, reverseBits_lt n _, fun j hj => reverseBits_testBit_of_lt hj _⟩

/-- Reversing the low n bits reverses the bit sequence of width n. -/
theorem bitSeq_reverseBits (n v : Nat) : bitSeq n (reverseBits n v) = (bitSeq n v).reverse := by
  refine List.ext_getElem (by simp [bitSeq]) fun i hi _ => ?_
  have hin : i < n := by simpa [bitSeq] using hi
  simp only [bitSeq, List.getElem_reverse, List.getElem_map, List.getElem_range, List.length_map, List.length_range]
  exact reverseBits_testBit_of_lt (by omega) v

/-- Reversing twice gives back a number of n bits. -/
theorem reverseBits_reverseBits {n v : Nat} (h : v < 2 ^ n) : reverseBits n (reverseBits n v) = v := by
  refine Nat.eq_of_testBit_eq fun j => ?_
  rcases Nat.lt_or_ge j n with hj | hj
  · rw [reverseBits_testBit_of_lt hj, reverseBits_testBit_of_lt (by omega), show n - 1 - (n - 1 - j) = j by omega]
  · have hpow : 2 ^ n ≤ 2 ^ j := Nat.pow_le_pow_right Nat.two_pos hj
    rw [Nat.testBit_lt_two_pow ((reverseBits_lt n _).trans_le hpow), Nat.testBit_lt_two_pow (h.trans_le hpow)]

/-- Settles O33: the reversal fits in n bits again, so the second BREV retires too, and it undoes the first. -/
theorem brevTwiceGivesSource : Obligations.BrevTwiceGivesSource := by
  intro d e a n s hn h
  obtain ⟨t, ht, hvalue, -⟩ := brev_retires hn h d
  obtain ⟨u, hu, hvalue', -⟩ := brev_retires hn (hvalue ▸ reverseBits_lt n _) e
  refine ⟨⟨t, ht, ?_⟩, u, (execTwo_of_next ht _).trans hu, ?_⟩
  · rw [hvalue, bitSeq_reverseBits]
  · rw [hvalue', hvalue, reverseBits_reverseBits h]

/-! ### pack_bits (R94) -/

/-- One more bit: the sequence of the quotient by 2, and then the last bit. -/
theorem bitSeq_succ (w n : Nat) : bitSeq (w + 1) n = bitSeq w (n / 2) ++ [n.testBit 0] := by
  have hinit : bitSeq w (n / 2) = (List.range w).map fun i => n.testBit (w - i) := by
    refine List.map_congr_left fun i hi => ?_
    have hlt : i < w := List.mem_range.mp hi
    rw [Nat.testBit_div_two, show w - 1 - i + 1 = w - i by omega]
  rw [hinit, bitSeq, List.range_succ, List.map_append, Nat.add_sub_cancel, List.map_singleton, Nat.sub_self]

/-- A number of w bits is what its most-significant-first sequence stands for. -/
theorem packBits_bitSeq : ∀ {w n : Nat}, n < 2 ^ w → packBits (bitSeq w n) = n
  | 0, n, h => (Nat.lt_one_iff.mp h).symm
  | w + 1, n, h => by
    have ih : packBits (bitSeq w (n / 2)) = n / 2 := packBits_bitSeq (by rw [pow_succ] at h; omega)
    calc packBits (bitSeq (w + 1) n) = 2 * packBits (bitSeq w (n / 2)) + (n.testBit 0).toNat := by
          rw [bitSeq_succ, packBits, List.foldl_append]; rfl
      _ = 2 * (n / 2) + n % 2 := by rw [ih, Nat.toNat_testBit, pow_zero, Nat.div_one]
      _ = n := Nat.div_add_mod n 2

/-- Settles O34: every register fits in 256 bits, so BITS copies it and MOV copies the copy. -/
theorem packBitsInvertsIntToBits : Obligations.PackBitsInvertsIntToBits := by
  refine ⟨fun n h => packBits_bitSeq h, fun d e a s => ?_⟩
  obtain ⟨t, ht, hvalue, -, ⟨-, -, ⟨herr, hpc, hcmd⟩, -⟩⟩ := bits_retires (natF_lt s a) d
  obtain ⟨hvalue', -, ⟨-, -, ⟨herr', hpc', hcmd'⟩, -⟩⟩ := finishF_spec t e (natF_lt t d)
  exact ⟨_, execTwo_of_next ht _, hvalue'.trans hvalue, herr'.trans herr, hpc'.trans hpc, hcmd'.trans hcmd⟩

/-! ### Words of a register (R91, R92) -/

/-- Settles O35: word k is a quotient and a remainder of the register. -/
theorem wsplitExtractsWord : Obligations.WsplitExtractsWord := fun _ a k s hk =>
  ⟨encoded_of_wellFormed (decide_eq_true hk), retiresF_of_exec rfl (wordOf_toNat (s.readF a) k)
    ((Nat.mod_lt _ (by decide)).trans (by decide : 2 ^ 32 < 2 ^ 256))⟩

theorem wins_replaces {a : FIdx} {s : State} (h : s.natF a < 2 ^ 32) (d : FIdx) (k : Nat) :
    exec (.wins d a k) s = .next (s.finishF d (replaceWord (s.readF d) k ((s.readF a).setWidth 32)).toNat) :=
  if_neg h.not_ge

theorem wins_raises {a : FIdx} {s : State} (h : 2 ^ 32 ≤ s.natF a) (d : FIdx) (k : Nat) :
    exec (.wins d a k) s = .next (s.raise .encodingRange) := if_pos h

/-- Settles O36: the two branches of the range check; of the words of the result, word k is the source and the others are the
destination's. -/
theorem winsInsertsWordOrRaises : Obligations.WinsInsertsWordOrRaises := by
  intro d a k s w hk hw
  refine ⟨encoded_of_wellFormed (decide_eq_true hk), rfl, fun h => ?_, fun h => ⟨_, wins_raises h d k, raise_spec s _ hw⟩⟩
  refine ⟨_, _, wins_replaces h d k, finishF_spec s d (BitVec.isLt _), ?_, fun j hj hjk => ?_⟩
  · rw [← wordOf_toNat, wordOf_replaceWord_self _ hk, BitVec.toNat_setWidth]
    exact Nat.mod_eq_of_lt h
  · rw [← wordOf_toNat, wordOf_replaceWord_of_ne _ hk hj hjk, wordOf_toNat]
    rfl

/-! ### Halves of a register (R93, R95) -/

/-- The four words packed lie next to each other, so they are one run of 128 bits. -/
theorem packWords_toNat (v : Reg) {h : Nat} (hh : HalfOk h) : packWords v h = v.toNat / 2 ^ (128 * (1 - h)) % 2 ^ 128 := by
  have hrun : packWords v h = (v.extractLsb' (224 - 32 * (4 * h + 3)) 128).toNat := by
    simp only [packWords, wordOf]
    rw [BitVec.extractLsb'_append_extractLsb'_eq_extractLsb' (by omega),
      BitVec.extractLsb'_append_extractLsb'_eq_extractLsb' (by omega),
      BitVec.extractLsb'_append_extractLsb'_eq_extractLsb' (by omega)]
  rw [hrun, BitVec.extractLsb'_toNat, Nat.shiftRight_eq_div_pow, show 224 - 32 * (4 * h + 3) = 128 * (1 - h) by omega]

/-- A remainder mod 2^128 is below p, so reducing it mod p changes nothing. -/
theorem mod_two_pow_128_mod_p (n : Nat) : n % 2 ^ 128 % Config.p = n % 2 ^ 128 :=
  Nat.mod_eq_of_lt ((Nat.mod_lt _ (by decide)).trans (by decide : 2 ^ 128 < Config.p))

/-- Settles O37: the packed words are a half of the register, which is below p. -/
theorem fpackGivesHalf : Obligations.FpackGivesHalf := by
  intro d a h s hh
  obtain ⟨t, ht, hretired⟩ : ∃ t, exec (.fpack d a h) s = .next t ∧
      RetiredF d (s.natF a / 2 ^ (128 * (1 - h)) % 2 ^ 128 % Config.p) s t :=
    retiresF_of_exec rfl (congrArg (· % Config.p) (packWords_toNat (s.readF a) hh)) (mod_p_lt_256 _)
  exact ⟨encoded_of_wellFormed (decide_eq_true hh), t, ht, hretired, hretired.value.trans (mod_two_pow_128_mod_p _)⟩

/-- The w bits of a number from bit i on are those of its remainder mod 2^m, when they end below bit m. -/
theorem mod_two_pow_div_mod (n : Nat) {m i w : Nat} (h : i + w ≤ m) : n % 2 ^ m / 2 ^ i % 2 ^ w = n / 2 ^ i % 2 ^ w := by
  obtain ⟨r, rfl⟩ := Nat.exists_eq_add_of_le h
  rw [add_assoc, pow_add, Nat.mod_mul_right_div_self, Nat.mod_mod_of_dvd _ (pow_dvd_pow 2 (Nat.le_add_right w r))]

/-- Word 4+j of half h is word 4h+j of the whole. -/
theorem word_of_half (n : Nat) {h j : Nat} (hh : HalfOk h) (hj : j < 4) :
    n / 2 ^ (128 * (1 - h)) % 2 ^ 128 / 2 ^ (224 - 32 * (4 + j)) % 2 ^ 32 = n / 2 ^ (224 - 32 * (4 * h + j)) % 2 ^ 32 := by
  rw [mod_two_pow_div_mod _ (by omega), Nat.div_div_eq_div_mul, ← pow_add,
    show 128 * (1 - h) + (224 - 32 * (4 + j)) = 224 - 32 * (4 * h + j) by omega]

/-- Settles O38: WSPLIT takes a word of the half that FPACK left. -/
theorem wsplitInvertsFpack : Obligations.WsplitInvertsFpack := by
  intro d e a h j s hh hj
  obtain ⟨-, t, ht, -, hhalf⟩ := fpackGivesHalf d a h s hh
  obtain ⟨-, u, hu, hword, -⟩ := wsplitExtractsWord e d (4 + j) t (by omega)
  refine ⟨u, (execTwo_of_next ht _).trans hu, BitVec.eq_of_toNat_eq ?_⟩
  calc (u.readF e).toNat = s.natF a / 2 ^ (224 - 32 * (4 * h + j)) % 2 ^ 32 := by
        rw [← State.natF, hword, hhalf, word_of_half _ hh hj]
    _ = ((wordOf (s.readF a) (4 * h + j)).setWidth 256).toNat := by
        rw [BitVec.toNat_setWidth_of_le (by omega), wordOf_toNat, State.natF]

end Sys2Proof.Laws
end

section
/-! The moves NOP, MOV and LDI (R96-R98). NOP's word is the only legal one with its opcode: a legal word is that of the command it
decodes to, and an opcode determines its row. -/

namespace Sys2Proof.Laws

open Sys2Proof.Machine

/-! ### NOP (R96) -/

/-- Retiring alone changes no register. -/
theorem retire_spec (s : State) : Retired s s.retire ∧ SameRegs s s.retire :=
  ⟨⟨rfl, rfl, ⟨rfl, rfl, rfl⟩, ⟨rfl, rfl, rfl⟩⟩, ⟨fun _ => rfl, fun _ => rfl, rfl⟩⟩

/-- No two rows of the opcode map have the same opcode (R58). -/
theorem opc_injective : Function.Injective Op.opc := fun o o' h =>
  Option.some_injective _ (by rw [← ofOpc_opc o, h, ofOpc_opc])

/-- The only command of NOP's row is NOP. -/
theorem eq_nop_of_op {i : Instr} (h : i.op = .nop) : i = .nop := by
  cases i with
  | nop => rfl
  | _ => cases h

/-- Of the words with NOP's opcode only NOP's own is legal. -/
theorem eq_encode_nop_of_decode {w : Word} {i : Instr} (hopc : opcField w = Op.opc .nop) (hdec : decode w = .ok i) :
    w = encode .nop := by
  obtain ⟨-, rfl⟩ := encodeDecodeRoundTrip w i hdec
  obtain ⟨hrow, -⟩ := encode_opcode_and_format i
  rw [eq_nop_of_op (opc_injective (hrow.symm.trans hopc))]

/-- Settles O40: NOP's word is 0, so a legal word with its opcode is 0; performing NOP is retiring. -/
theorem nopOnlyAdvancesCmdcount : Obligations.NopOnlyAdvancesCmdcount := by
  intro s
  have hword : encode .nop = 0#32 := by decide
  refine ⟨encoded_of_wellFormed rfl, hword, fun w hopc hne => ?_, s.retire, rfl, retire_spec s⟩
  cases hdec : decode w with
  | error e => exact ⟨e, rfl⟩
  | ok i => exact absurd ((eq_encode_nop_of_decode hopc hdec).trans hword) hne

/-! ### MOV and LDI (R97, R98) -/

/-- Settles O41: the source as it stands fits in the destination, so nothing of it is reduced. -/
theorem movCopiesWholeRegister : Obligations.MovCopiesWholeRegister := fun _ a s =>
  ⟨encoded_of_wellFormed rfl, retiresF_of_exec rfl rfl (natF_lt s a)⟩

/-- Settles O42: what LDI leaves, an immediate of 16 bits being below 2^256. -/
theorem ldiLoadsZeroExtendedImmediate : Obligations.LdiLoadsZeroExtendedImmediate := fun d imm s =>
  ⟨encoded_of_wellFormed rfl, _, exec_ldi d imm s⟩

end Sys2Proof.Laws
end

section
/-! Choices of the host around an error (60_exceptions R106, R110): the order of a host move and a retirement, and CTRL.ERRCLR. -/

namespace Sys2Proof.Laws

open Sys2Proof.Machine

/-! ### A host move and a retirement (R110) -/

/-- While latency and host moves are both left, no word is due (log entry 5). -/
theorem dueCommand_of_waiting {s : State} (hlat : s.latency ≠ 0) (hin : s.inbox ≠ []) : s.dueCommand = none :=
  if_neg (not_or.mpr ⟨hlat, hin⟩)

/-- With no word due, the step performs the host's next move. -/
theorem step_of_move {s : State} {m : HostMove} {rest : List HostMove} (hdue : s.dueCommand = none)
    (hin : s.inbox = m :: rest) : step s = .next ((takeMove s rest).perform m) := by
  rw [step_of_not_due hdue, hostMove_of_cons hin]

/-- Settles O9: the word is due at latency 0; while latency and a move are left it is not, and the step is the host's. -/
theorem hostMoveAndRetirementInEitherOrder : Obligations.HostMoveAndRetirementInEitherOrder := by
  intro s w m rest hw hin
  refine ⟨?_, fun n => ?_, fun u huin hdue => step_of_move hdue huin⟩
  · have hdue : { s with latency := 0 }.dueCommand = some w := (dueCommand_of_ready (.inl rfl)).trans hw
    exact step_of_due hdue
  · have hleft : s.inbox ≠ [] := by simp [hin]
    exact step_of_move (dueCommand_of_waiting n.succ_ne_zero hleft) hin

/-! ### ERRCLR (R106) -/

/-- The write to CTRL stands at offset 0x004. -/
theorem hostWrite_ctrl (s : State) (v : Word) : s.hostWrite .word 0x004#12 v = s.writeCtrl v := rfl

/-- A write to CTRL with ERRCLR and without SRST clears the latch. -/
theorem writeCtrl_of_errclr {v : Word} (h0 : v.getLsbD 0 = false) (h1 : v.getLsbD 1 = true) (s : State) :
    s.writeCtrl v = s.clearError := by
  simp only [State.writeCtrl, h0, h1, Bool.false_eq_true, if_false, if_true]

/-- Settles O51: the write is `clearError`, which ERR decides between emptying the latch and doing nothing. -/
theorem errclrClearsLatch : Obligations.ErrclrClearsLatch := by
  intro s v h0 h1
  rw [hostWrite_ctrl, writeCtrl_of_errclr h0 h1]
  exact ⟨fun herr => State.clearError_of_latched s (Option.isSome_iff_ne_none.mpr herr), State.clearError_of_clear s⟩

end Sys2Proof.Laws
end

section
/-! The end of an accepted command (R125) and the two resets (R116 to R118): the bounded wait for the word in flight, what a soft
reset changes, the first word after a reset, and the state after reset. -/

namespace Sys2Proof.Laws

open Sys2Proof.Machine

/-! ### Every accepted command ends (R125) -/

@[simp] theorem takeMove_latency (s : State) (rest : List HostMove) : (takeMove s rest).latency = s.latency - 1 := rfl

/-- Under BUSY = 1, a step clears BUSY or uses up one of the host moves that the word in flight still waits for. -/
theorem step_of_busy {s : State} (hbusy : s.busy = true) :
    ∃ t, step s = .next t ∧ (t.busy = false ∨ (t.busy = true ∧ t.latency + 1 = s.latency)) := by
  obtain ⟨w, hw⟩ := Option.isSome_iff_exists.mp hbusy
  by_cases hready : s.latency = 0 ∨ s.inbox = []
  · obtain ⟨t, hrun, hidle⟩ := runCommand_idle w s
    exact ⟨t, (step_of_due ((dueCommand_of_ready hready).trans hw)).trans hrun, .inl hidle⟩
  · obtain ⟨hlat, hleft⟩ := not_or.mp hready
    obtain ⟨m, rest, hin⟩ := List.exists_cons_of_ne_nil hleft
    refine ⟨_, step_of_move (dueCommand_of_waiting hlat hleft) hin,
      (perform_busy (takeMove s rest) m hbusy).imp_right fun ⟨hflight, hless⟩ => ⟨?_, ?_⟩⟩
    · rwa [State.busy, hflight]
    · rw [hless, takeMove_latency]
      omega

/-- Settles O8, by induction on the latency, which every step under BUSY = 1 decreases until BUSY clears. -/
theorem acceptedCommandEndsInBoundedSteps : Obligations.AcceptedCommandEndsInBoundedSteps := by
  intro s hbusy
  induction hn : s.latency using Nat.strong_induction_on generalizing s with
  | _ n ih =>
    obtain ⟨t, hstep, hidle | ⟨hstill, hless⟩⟩ := step_of_busy hbusy
    · exact ⟨1, t, one_pos, Nat.le_add_left 1 n, run_succ (M := Sys2Proof.core) 0 hstep, hidle⟩
    · obtain ⟨k, u, -, hle, hrun, hidle⟩ := ih t.latency (by omega) t hstill rfl
      exact ⟨k + 1, u, k.succ_pos, by omega, (run_succ (M := Sys2Proof.core) k hstep).trans hrun, hidle⟩

/-! ### Soft reset (R117) -/

theorem softReset_of_idle {s : State} (h : s.inFlight = none) : s.softReset = s.resetControl := by
  simp [State.softReset, h]

theorem softReset_of_inFlight {s : State} {w : Word} (h : s.inFlight = some w) :
    s.softReset = (s.abandon w).resetControl := by
  simp [State.softReset, h]

/-- A soft reset empties the error latch. -/
theorem softReset_latch (s : State) : s.softReset.err = none ∧ s.softReset.errPc = 0#32 ∧ s.softReset.errCmd = 0#32 := by
  obtain hreset | ⟨w, hreset⟩ := softReset_cases s <;> rw [hreset] <;> exact ⟨rfl, rfl, rfl⟩

theorem sameRegs_resetControl (s : State) : SameRegs s s.resetControl := ⟨fun _ => rfl, fun _ => rfl, rfl⟩

/-- Resetting the control state changes no register on top of a destination. -/
theorem onlyDest_resetControl {d : Dest} {s t : State} (h : OnlyDest d s t) : OnlyDest d s t.resetControl := by
  cases d with
  | none => exact ⟨h.f, h.p, h.ladder⟩
  | f d => exact ⟨h.f, h.p, h.ladder⟩
  | p d => exact ⟨h.f, h.p⟩

/-- A P destination may take the ladder with it. -/
theorem onlyP_forgetLadder {d : PIdx} {s t : State} (h : OnlyP d s t) : OnlyP d s t.forgetLadder := ⟨h.f, h.p⟩

theorem abandon_of_illegal {w : Word} {e : Illegal} (h : decode w = .error e) (s : State) : s.abandon w = s := by
  simp [State.abandon, h]

theorem destOf_of_pmul {i : Instr} (h : i.op = .pmul) : ∃ d, destOf i = .p d := by
  cases i with
  | pmul d a b => exact ⟨d, rfl⟩
  | _ => cases h

/-- Abandoning a command changes at most its destination; PMUL, whose ladder is given up too, has a P destination. -/
theorem onlyDest_abandon {w : Word} {i : Instr} (h : decode w = .ok i) (s : State) :
    OnlyDest (destOf i) s (s.abandon w) := by
  have hdest := forgetDest_spec s (destOf i)
  simp only [State.abandon, h]
  split
  case isTrue hpmul =>
    obtain ⟨d, hd⟩ := destOf_of_pmul hpmul
    rw [hd] at hdest ⊢
    exact onlyP_forgetLadder hdest
  case isFalse => exact hdest

/-- A write to CTRL with SRST is a soft reset, whatever the other bits. -/
theorem writeCtrl_of_srst {v : Word} (h : v.getLsbD 0 = true) (s : State) : s.writeCtrl v = s.softReset := if_pos h

/-- Settles O52: the write is a soft reset, which resets the control state after abandoning the word in flight, if there is one;
an illegal word has nothing to abandon. -/
theorem softResetKeepsRegisters : Obligations.SoftResetKeepsRegisters := by
  rintro s t v hbit rfl
  rw [hostWrite_ctrl, writeCtrl_of_srst hbit]
  obtain ⟨herr, hpc, hcmd⟩ := softReset_latch s
  refine ⟨softReset_busy s, herr, hpc, hcmd, softReset_cmdCount s, fun hidle => ?_, fun w i hw hdec => ?_,
    fun w e hw hdec => ?_⟩
  · rw [softReset_of_idle hidle]
    exact sameRegs_resetControl s
  · rw [softReset_of_inFlight hw]
    exact onlyDest_resetControl (onlyDest_abandon hdec s)
  · rw [softReset_of_inFlight hw, abandon_of_illegal hdec]
    exact sameRegs_resetControl s

/-! ### The first command after a reset (R116, R118) -/

/-- STATUS is 0 with nothing in flight and no error latched. -/
theorem statusWord_of_clear {s : State} (hflight : s.inFlight = none) (herr : s.err = none) : s.statusWord = 0#32 := by
  simp [State.statusWord, State.errCode, State.errFlag, State.busy, hflight, herr]

/-- A word written to CMD with BUSY = 0 and ERR = 0 is accepted as the command that CMDCOUNT counts next. -/
theorem hostWrite_cmd_accepted {s : State} (hidle : s.busy = false) (herr : s.err = none) (w : Word) :
    (s.hostWrite .word 0x00C#12 w).inFlight = some w ∧ (s.hostWrite .word 0x00C#12 w).cmdCount = s.cmdCount := by
  rw [hostWrite_cmd, writeCmd_of_ready hidle herr]
  exact ⟨rfl, rfl⟩

/-- Settles O53: either reset leaves BUSY = 0, ERR = 0 and CMDCOUNT = 0, so the word is accepted and counted from 0. -/
theorem firstCommandAfterResetHasIndexZero : Obligations.FirstCommandAfterResetHasIndexZero := by
  refine ⟨fun s => ⟨statusWord_of_clear rfl rfl, rfl, rfl, rfl, rfl⟩, ?_⟩
  rintro s t w (rfl | rfl)
  · exact hostWrite_cmd_accepted (s := s.hardReset) rfl rfl w
  · obtain ⟨herr, -, -⟩ := softReset_latch s
    obtain ⟨hflight, hcount⟩ := hostWrite_cmd_accepted (softReset_busy s) herr w
    exact ⟨hflight, hcount.trans (softReset_cmdCount s)⟩

/-! ### The state after reset (R22, R116) -/

/-- The triple that stands in the P registers and the ladder after reset meets the storage invariant (log entries 2 and 3). -/
theorem pRegZero_stored : PReg.zero.Stored := ⟨nofun, fun _ => ⟨p_pos, p_pos⟩⟩

theorem readP_reset (i : PIdx) : State.reset.readP i = PReg.zero := by
  simp [State.reset, State.readP]

/-- Settles O58: every stored point after reset is the zero triple, and the control state is that of a reset. -/
theorem resetMeetsInv : Obligations.ResetMeetsInv := by
  have hpoints : State.reset.PointsStored := ⟨fun i => readP_reset i ▸ pRegZero_stored, pRegZero_stored, pRegZero_stored⟩
  exact ⟨inv_resetControl hpoints, rfl, rfl⟩

end Sys2Proof.Laws
end
